-- ==== Sys2Proof/Word.lean ====
section
/-! DEFINITION. The block's words: bytes, four-bit bus numbers, the byte sequences made of them, and the opaque
value a transport error carries. -/

namespace Sys2Proof

/-- An unsigned 8-bit value (00_scope R10). -/
abbrev Byte := BitVec 8

/-- A MIDI channel field, called "bus" (00_scope R12, R15). -/
abbrev Bus := BitVec 4

/-- The 16-bit operand of SetFaderPos (30_encoding R63). -/
abbrev Word16 := BitVec 16

/-- One command frame: a byte sequence whose length the command port gives (30_encoding R60). -/
abbrev Frame := List Byte

/-- A text is a sequence of bytes (00_scope R11). -/
abbrev Text := List Byte

/-- The opaque value `e` of a transport error, a token that the block never interprets (10_state R27; log 15,
DESIGN CHOICE: safe). -/
abbrev TransportError := Nat

end Sys2Proof
end

