-- ==== Sys2Proof/Machine/Message.lean ====
section
/-! DEFINITION. Message records, the encoder's output (00_scope R12). -/

namespace Sys2Proof.Machine

/-- The message records of 00_scope R12. A record is the block's output value; its wire bytes are Machine/Wire.lean. -/
inductive Message where
  /-- Note-On: bus, key, velocity. -/
  | noteOn (ch : Bus) (key vel : Byte)
  /-- Note-Off: bus, key, velocity. -/
  | noteOff (ch : Bus) (key vel : Byte)
  /-- Control-Change: bus, controller, value. -/
  | cc (ch : Bus) (ctrl val : Byte)
  /-- Channel-Pressure (after-touch): bus, value. -/
  | chanPressure (ch : Bus) (val : Byte)
  /-- Pitch-Bend: bus and the signed bend value, −8192..8191. -/
  | pitchBend (ch : Bus) (bend : Int)
  /-- System-Exclusive: the payload, without the framing bytes F0 and F7. -/
  | sysEx (payload : List Byte)
  deriving DecidableEq, Repr

end Sys2Proof.Machine
end

