-- ==== Sys2Proof/Config.lean ====
section
/-! DEFINITION. The configuration (00_scope R8, R9): the parameters the block is built with, their constraints and
their defaults, the constants the spec fixes, and the one transport-defined parameter, which stays uninterpreted. -/

namespace Sys2Proof

/-- The device variants, in the order of `HeaderROM` (00_scope R2; 10_state R24). -/
inductive Variant where
  | std
  | xt
  | c4
  deriving DecidableEq, Repr

/-- The six control families of a reset batch (44_reset_sequencer R161). -/
inductive Family where
  | led
  | fader
  | vpot
  | meter
  | digit
  | lcd
  deriving DecidableEq, Repr

/-- A SysEx header: exactly 4 bytes (10_state R24). -/
structure Header where
  b0 : Byte
  b1 : Byte
  b2 : Byte
  b3 : Byte
  deriving DecidableEq, Repr

/-- The header's bytes in their ROM order (20_memory R45). -/
def Header.bytes (h : Header) : List Byte := [h.b0, h.b1, h.b2, h.b3]

/-- The parameters of 00_scope R8 that a configuration chooses. `clockTicksPerMs` is the resolution of the clock
port, which 10_state R28 leaves open ("in milliseconds, or finer"; log 7). -/
structure Config where
  lenIDs : Nat
  lenDigits : Nat
  lenLines : Nat
  lineWidth : Nat
  headerStd : Header
  headerXT : Header
  headerC4 : Header
  lcdFrameByte : Byte
  lcdSizeStd : Nat
  lcdSizeXT : Nat
  lcdSizeC4 : Nat
  lenC4Rows : Nat
  stateOn : Byte
  stateOff : Byte
  meterLessThan60 : Byte
  meterClipping : Byte
  meterClipOff : Byte
  vpotMode0 : Byte
  vpotMode3 : Byte
  vpotLEDCenter : Byte
  vpotLEDOff : Byte
  digitOnChar : Byte
  digitOffChar : Byte
  familyOrder : List Family
  clockTicksPerMs : Nat
  deriving DecidableEq, Repr

namespace Config

/-! ### Parameters that R8 fixes -/

/-- 9 channels: 8 strips and Master. -/
def lenChannels : Nat := 9
/-- The Master channel, `LenChannels − 1`. -/
def masterCh : Nat := 8
/-- A timecode text has at most 10 characters. -/
def timeDisplayLen : Nat := 10
/-- First controller of the digits and of the timecode strip. -/
def digitBase : Nat := 0x40
/-- First controller of the V-Pot rings. -/
def vpotBase : Nat := 0x30
/-- First row selector of the C4 display. -/
def c4RowBase : Nat := 0x30
/-- Greatest fader position. -/
def faderMax : Nat := 16382
/-- Position minus this is the bend value. -/
def faderBias : Int := 8191
/-- Bus of the switch LEDs. -/
def ledBus : Bus := 0
/-- Bus of the V-Pot rings. -/
def vpotBus : Bus := 0
/-- Bus of the digits and of the timecode strip. -/
def digitBus : Bus := 15
/-- Bus of the meters (92_eei_decisions D8). -/
def meterBus : Bus := 0
/-- What dot-range normalization subtracts. -/
def dotShift : Byte := 0x40
/-- The settling interval in milliseconds, a lower bound (44_reset_sequencer R177). -/
def settleIntervalMs : Nat := 100
/-- Centre of the unsigned pitch-bend word (92_eei_decisions D28). -/
def pitchBendCenter : Int := 8192

/-- The settling interval in readings of the clock port. -/
def settleTicks (c : Config) : Nat := settleIntervalMs * c.clockTicksPerMs

/-- The header of a variant as configured. -/
def header (c : Config) : Variant → Header
  | .std => c.headerStd
  | .xt => c.headerXT
  | .c4 => c.headerC4

/-- The size of a variant's display. -/
def lcdSize (c : Config) : Variant → Nat
  | .std => c.lcdSizeStd
  | .xt => c.lcdSizeXT
  | .c4 => c.lcdSizeC4

/-! ### Well-formedness: the constraint column of R8 -/

/-- A byte that MIDI can carry as data: at most 0x7F. -/
def dataByte (b : Byte) : Bool := b.toNat ≤ 0x7F

/-- Every byte of a header is at most 0x7F. -/
def headerOk (h : Header) : Bool := h.bytes.all dataByte

/-- A size between 1 and 128, so that every offset is a data byte. -/
def sizeOk (n : Nat) : Bool := 1 ≤ n && n ≤ 128

/-- The counts and the reset's line layout. -/
def countsOk (c : Config) : Bool :=
  1 ≤ c.lenIDs && c.lenIDs ≤ 128 && 1 ≤ c.lenDigits && c.lenDigits ≤ 64 &&
  1 ≤ c.lenLines && 1 ≤ c.lineWidth && c.lenLines * c.lineWidth ≤ c.lcdSizeStd

/-- The headers: data bytes, pairwise distinct. -/
def headersOk (c : Config) : Bool :=
  headerOk c.headerStd && headerOk c.headerXT && headerOk c.headerC4 &&
  c.headerStd != c.headerXT && c.headerStd != c.headerC4 && c.headerXT != c.headerC4

/-- The displays: frame byte, sizes and C4 rows. -/
def displaysOk (c : Config) : Bool :=
  dataByte c.lcdFrameByte && sizeOk c.lcdSizeStd && sizeOk c.lcdSizeXT && sizeOk c.lcdSizeC4 &&
  1 ≤ c.lenC4Rows && c.lenC4Rows ≤ 0x50

/-- The named operand values: LED states, meter sentinels, V-Pot sums. -/
def namedValuesOk (c : Config) : Bool :=
  dataByte c.stateOn && dataByte c.stateOff && c.stateOn != c.stateOff &&
  c.meterLessThan60.toNat < 16 && c.meterClipping.toNat < 16 && c.meterClipOff.toNat < 16 &&
  c.meterClipOff != c.meterClipping &&
  c.vpotMode3.toNat + c.vpotLEDCenter.toNat ≤ 0xFF && c.vpotMode0.toNat + c.vpotLEDOff.toNat ≤ 0xFF

/-- The families in the order 44_reset_sequencer R161 lists them. -/
def allFamilies : List Family := [.led, .fader, .vpot, .meter, .digit, .lcd]

/-- `FamilyOrder` is a permutation of the six families. -/
def orderOk (c : Config) : Bool :=
  c.familyOrder.length == 6 && allFamilies.all fun f => c.familyOrder.contains f

/-- The constraints of R8 all hold (R9). The clock's resolution is at least one reading a millisecond. -/
def wf (c : Config) : Bool :=
  c.countsOk && c.headersOk && c.displaysOk && c.namedValuesOk && c.orderOk && 1 ≤ c.clockTicksPerMs

/-- The defaults of R8. R8 gives no default for `LenIDs` and `LenDigits` ("OPEN; vectors use 2"): 2 and 2 here
(log 2, DESIGN CHOICE: unsafe). -/
def default : Config where
  lenIDs := 2
  lenDigits := 2
  lenLines := 2
  lineWidth := 56
  headerStd := ⟨0x00, 0x00, 0x66, 0x14⟩
  headerXT := ⟨0x00, 0x00, 0x66, 0x15⟩
  headerC4 := ⟨0x00, 0x00, 0x66, 0x17⟩
  lcdFrameByte := 0x12
  lcdSizeStd := 112
  lcdSizeXT := 112
  lcdSizeC4 := 56
  lenC4Rows := 4
  stateOn := 0x7F
  stateOff := 0x00
  meterLessThan60 := 0x00
  meterClipping := 0x0E
  meterClipOff := 0x0F
  vpotMode0 := 0x00
  vpotMode3 := 0x30
  vpotLEDCenter := 0x40
  vpotLEDOff := 0x00
  digitOnChar := 0xA0
  digitOffChar := 0x20
  familyOrder := allFamilies
  clockTicksPerMs := 1

/-- `HighDataSerialize` (00_scope R8, 30_encoding R93): the bytes a transport sends for a record that the reference
serialization does not cover. Transport-defined, so uninterpreted: no claim can depend on its value (log 13: safe). -/
opaque highDataSerialize : Machine.Message → List Byte

end Config

end Sys2Proof
end

