-- ==== Sys2Proof/Syntax.lean ====
section
/-! DEFINITION. The command set (00_scope R2; 30_encoding R61): one constructor per row of the opcode table. An operand
is the frame's raw value, because a value outside its domain is an error of the command itself (30_encoding R66). -/

namespace Sys2Proof

/-- A command with its operands, in frame order (30_encoding R62). -/
inductive Instr where
  /-- 0x01: light or unlight one switch LED. -/
  | setLED (sw state : Byte)
  /-- 0x02: a Note-Off with velocity 0. -/
  | sendOff (sw : Byte)
  /-- 0x03: a Note-Off with a given velocity. -/
  | sendOffVelocity (sw vel : Byte)
  /-- 0x04: move one motor fader. -/
  | setFaderPos (ch : Byte) (pos : Word16)
  /-- 0x05: set one V-Pot LED ring. -/
  | setVPot (ch mode led : Byte)
  /-- 0x06: set one level meter. -/
  | setMeter (ch level : Byte)
  /-- 0x07: write one 7-segment digit. -/
  | setDigit (digit char : Byte)
  /-- 0x08: write the timecode strip. -/
  | setTimeDisplay (text : Text)
  /-- 0x09: write the standard LCD. -/
  | setLCD (offset : Byte) (text : Text)
  /-- 0x0A: write the XT's LCD. -/
  | setLCDXT (offset : Byte) (text : Text)
  /-- 0x0B: write one row of the C4's LCD. -/
  | setLCDC4 (offset row : Byte) (text : Text)
  /-- 0x0C: the SysEx header of a variant. -/
  | headerFor (variant : Byte)
  /-- 0x0D: run the surface reset procedure. -/
  | reset
  deriving DecidableEq, Repr

end Sys2Proof
end

