-- ==== Sys2Proof/WellFormed.lean ====
section
/-! DEFINITION. Which commands a frame can carry. The length byte of a text is 0..255 (30_encoding R64); every other
operand's type already has the width its format gives it. -/

namespace Sys2Proof

/-- A text that one length byte can count (30_encoding R64). -/
def Text.wf (t : Text) : Bool := t.length ≤ 255

/-- A command that some frame encodes. -/
def Instr.wf : Instr → Bool
  | .setLED _ _ => true
  | .sendOff _ => true
  | .sendOffVelocity _ _ => true
  | .setFaderPos _ _ => true
  | .setVPot _ _ _ => true
  | .setMeter _ _ => true
  | .setDigit _ _ => true
  | .setTimeDisplay text => Text.wf text
  | .setLCD _ text => Text.wf text
  | .setLCDXT _ text => Text.wf text
  | .setLCDC4 _ _ text => Text.wf text
  | .headerFor _ => true
  | .reset => true

end Sys2Proof
end

