-- ==== Sys2Proof/Decode.lean ====
section
/-! DEFINITION. Command frames (30_encoding part 1): the opcode table, the formats, the decoder, which is total on any
byte sequence and rejects by name, the encoder written from the same tables, and the frame a table word stands for. -/

namespace Sys2Proof

/-- The thirteen opcodes (30_encoding R61). -/
inductive Opcode where
  | setLED
  | sendOff
  | sendOffVelocity
  | setFaderPos
  | setVPot
  | setMeter
  | setDigit
  | setTimeDisplay
  | setLCD
  | setLCDXT
  | setLCDC4
  | headerFor
  | reset
  deriving DecidableEq, Repr

/-- The formats (30_encoding R62). -/
inductive Format where
  | n
  | s
  | sv
  | cp
  | cml
  | cl
  | dc
  | t
  | ot
  | ort
  | v
  deriving DecidableEq, Repr

/-- Why a frame encodes no command (30_encoding R65, R66). -/
inductive DecodeError where
  /-- The frame has no byte: E_FRAME. -/
  | emptyFrame
  /-- Byte 0 is a reserved opcode: E_ILLEGAL_CMD. -/
  | illegalOpcode (op : Byte)
  /-- The opcode is legal and the frame's length is not the one its format gives: E_FRAME. -/
  | badLength
  deriving DecidableEq, Repr

/-- The opcode of byte 0, matched with mask 0xFF; reserved bytes have none (30_encoding R61, R66). -/
def opcodeOf (op : Byte) : Option Opcode :=
  match op.toNat with
  | 0x01 => some .setLED
  | 0x02 => some .sendOff
  | 0x03 => some .sendOffVelocity
  | 0x04 => some .setFaderPos
  | 0x05 => some .setVPot
  | 0x06 => some .setMeter
  | 0x07 => some .setDigit
  | 0x08 => some .setTimeDisplay
  | 0x09 => some .setLCD
  | 0x0A => some .setLCDXT
  | 0x0B => some .setLCDC4
  | 0x0C => some .headerFor
  | 0x0D => some .reset
  | _ => none

/-- The byte of an opcode (30_encoding R61). -/
def opcodeByte : Opcode → Byte
  | .setLED => 0x01
  | .sendOff => 0x02
  | .sendOffVelocity => 0x03
  | .setFaderPos => 0x04
  | .setVPot => 0x05
  | .setMeter => 0x06
  | .setDigit => 0x07
  | .setTimeDisplay => 0x08
  | .setLCD => 0x09
  | .setLCDXT => 0x0A
  | .setLCDC4 => 0x0B
  | .headerFor => 0x0C
  | .reset => 0x0D

/-- The format column of 30_encoding R61. -/
def formatOf : Opcode → Format
  | .setLED => .sv
  | .sendOff => .s
  | .sendOffVelocity => .sv
  | .setFaderPos => .cp
  | .setVPot => .cml
  | .setMeter => .cl
  | .setDigit => .dc
  | .setTimeDisplay => .t
  | .setLCD => .ot
  | .setLCDXT => .ot
  | .setLCDC4 => .ort
  | .headerFor => .v
  | .reset => .n

/-- The length column of 30_encoding R62, without the `n` text bytes of formats T, OT and ORT. -/
def fixedLength : Format → Nat
  | .n => 1
  | .s => 2
  | .sv => 3
  | .cp => 4
  | .cml => 4
  | .cl => 3
  | .dc => 3
  | .t => 2
  | .ot => 3
  | .ort => 4
  | .v => 2

/-- The formats that end in a length byte and that many text bytes (30_encoding R64, R67). -/
def carriesText : Format → Bool
  | .t => true
  | .ot => true
  | .ort => true
  | .n => false
  | .s => false
  | .sv => false
  | .cp => false
  | .cml => false
  | .cl => false
  | .dc => false
  | .v => false

/-- The length a format gives a frame, computed with the frame's own length byte (30_encoding R62, R65); none where
that byte is missing. -/
def frameLength (fmt : Format) (f : Frame) : Option Nat :=
  if carriesText fmt then (f[fixedLength fmt - 1]?).map fun n => fixedLength fmt + n.toNat
  else some (fixedLength fmt)

/-- The 16-bit position, low byte first (30_encoding R63; 20_memory R46). -/
def positionOf (lo hi : Byte) : Word16 := lo.zeroExtend 16 ||| (hi.zeroExtend 16 <<< 8)

/-- The low byte of a position. -/
def positionLow (pos : Word16) : Byte := BitVec.ofNat 8 (pos.toNat % 256)

/-- The high byte of a position. -/
def positionHigh (pos : Word16) : Byte := BitVec.ofNat 8 (pos.toNat / 256)

/-- A length byte and exactly that many text bytes (30_encoding R64, R65). -/
def readText : List Byte → Option Text
  | [] => none
  | n :: text => if text.length = n.toNat then some text else none

/-- The operand bytes of a command, read by its format (30_encoding R62, R63). None where the length is wrong. -/
def readOperands (op : Opcode) (operands : List Byte) : Option Instr :=
  match op with
  | .setLED => match operands with
    | [sw, state] => some (.setLED sw state)
    | _ => none
  | .sendOff => match operands with
    | [sw] => some (.sendOff sw)
    | _ => none
  | .sendOffVelocity => match operands with
    | [sw, vel] => some (.sendOffVelocity sw vel)
    | _ => none
  | .setFaderPos => match operands with
    | [ch, lo, hi] => some (.setFaderPos ch (positionOf lo hi))
    | _ => none
  | .setVPot => match operands with
    | [ch, mode, led] => some (.setVPot ch mode led)
    | _ => none
  | .setMeter => match operands with
    | [ch, level] => some (.setMeter ch level)
    | _ => none
  | .setDigit => match operands with
    | [digit, char] => some (.setDigit digit char)
    | _ => none
  | .setTimeDisplay => (readText operands).map .setTimeDisplay
  | .setLCD => match operands with
    | offset :: counted => (readText counted).map (.setLCD offset)
    | [] => none
  | .setLCDXT => match operands with
    | offset :: counted => (readText counted).map (.setLCDXT offset)
    | [] => none
  | .setLCDC4 => match operands with
    | offset :: row :: counted => (readText counted).map (.setLCDC4 offset row)
    | _ => none
  | .headerFor => match operands with
    | [variant] => some (.headerFor variant)
    | _ => none
  | .reset => match operands with
    | [] => some .reset
    | _ => none

/-- The command a frame encodes: an empty frame first, then the opcode, then the length (30_encoding R65;
60_exceptions R204). -/
def decode : Frame → Except DecodeError Instr
  | [] => .error .emptyFrame
  | op :: operands =>
    match opcodeOf op with
    | none => .error (.illegalOpcode op)
    | some o =>
      match readOperands o operands with
      | none => .error .badLength
      | some i => .ok i

/-- A text with its length byte (30_encoding R64). -/
def writeText (text : Text) : List Byte := BitVec.ofNat 8 text.length :: text

/-- The frame of a command (30_encoding R61, R62). -/
def encode : Instr → Frame
  | .setLED sw state => [opcodeByte .setLED, sw, state]
  | .sendOff sw => [opcodeByte .sendOff, sw]
  | .sendOffVelocity sw vel => [opcodeByte .sendOffVelocity, sw, vel]
  | .setFaderPos ch pos => [opcodeByte .setFaderPos, ch, positionLow pos, positionHigh pos]
  | .setVPot ch mode led => [opcodeByte .setVPot, ch, mode, led]
  | .setMeter ch level => [opcodeByte .setMeter, ch, level]
  | .setDigit digit char => [opcodeByte .setDigit, digit, char]
  | .setTimeDisplay text => opcodeByte .setTimeDisplay :: writeText text
  | .setLCD offset text => opcodeByte .setLCD :: offset :: writeText text
  | .setLCDXT offset text => opcodeByte .setLCDXT :: offset :: writeText text
  | .setLCDC4 offset row text => opcodeByte .setLCDC4 :: offset :: row :: writeText text
  | .headerFor variant => [opcodeByte .headerFor, variant]
  | .reset => [opcodeByte .reset]

/-! ### Table words: an instruction as the number spec/opcode_table.json gives it (log 20) -/

/-- Byte `k` of a table word of `nbits` bits: byte 0 is the least significant; every bit above `nbits` is 0. -/
def tableByte (nbits w k : Nat) : Byte := BitVec.ofNat 8 (w % 2 ^ nbits / 2 ^ (8 * k))

/-- How many bytes the frame of a table word has: as many as its opcode's format gives with a length byte of 0 (or with
the length byte the word holds), and never fewer than the table's own bytes. -/
def tableLength (nbits w : Nat) : Nat :=
  match opcodeOf (tableByte nbits w 0) with
  | none => nbits / 8
  | some o =>
    let fmt := formatOf o
    let n := if carriesText fmt then (tableByte nbits w (fixedLength fmt - 1)).toNat else 0
    max (nbits / 8) (fixedLength fmt + n)

/-- The frame a table word stands for, its operand bytes beyond the table's being zeros. -/
def tableFrame (nbits w : Nat) : Frame := (List.range (tableLength nbits w)).map (tableByte nbits w)

/-- The command the decoder reads from a table word. -/
def decodeTableWord (nbits w : Nat) : Option Instr :=
  match decode (tableFrame nbits w) with
  | .ok i => some i
  | .error _ => none

end Sys2Proof
end

