-- ==== Sys2Proof/Machine/State.lean ====
section
/-! DEFINITION. The machine's state as plain data: the sequencer's registers, the configuration, the ports, the
environment's schedule; the values that cross the ports; why a step can stop; the state after power-on reset. -/

namespace Sys2Proof.Machine

/-- `rs_phase`: which step of the reset procedure is running (10_state R21). -/
inductive Phase where
  | idle
  | phaseA
  | settle
  | phaseB
  deriving DecidableEq, Repr

/-- `rs_result`: the outcome of the last completed Reset command (10_state R21, R23). -/
inductive RsResult where
  | none
  | ok
  | err (e : TransportError)
  deriving DecidableEq, Repr

/-- The domain errors (60_exceptions R201). Their numeric codes are `DomainError.code`. -/
inductive DomainError where
  | illegalCmd
  | frame
  | switch
  | state
  | channel
  | position
  | vpotSum
  | level
  | digit
  | lcdRange
  | textChar
  | row
  | variant
  deriving DecidableEq, Repr

/-- What the encoder result port returns for one command (10_state R29). -/
inductive Result where
  /-- `ok(ms)`: the messages of an encoder command. -/
  | messages (ms : List Message)
  /-- `ok(bytes)`: the header of HeaderFor. -/
  | bytes (bs : List Byte)
  /-- `err(code)`. -/
  | error (e : DomainError)
  deriving DecidableEq, Repr

/-- What the reset status port returns when a Reset command ends (10_state R30). -/
inductive Status where
  /-- `OK`. -/
  | ok
  /-- `ERR(TRANSPORT, e)`. -/
  | transportErr (e : TransportError)
  deriving DecidableEq, Repr

/-- The transport's response to one offered send (10_state R27). -/
inductive Answer where
  | ok
  | err (e : TransportError)
  deriving DecidableEq, Repr

/-- What can happen on the transport port. -/
inductive PortAction where
  /-- The sequencer offers a message (44_reset_sequencer R173). -/
  | offered (m : Message)
  /-- The transport answers the sequencer's outstanding send (R174, R175). -/
  | answered (a : Answer)
  /-- Another sender uses the transport (20_memory R54). -/
  | callerSent (m : Message)
  deriving DecidableEq, Repr

/-- Something that happened on the transport port, with the clock's reading at that moment. -/
structure TransportEvent where
  time : Nat
  action : PortAction
  deriving DecidableEq, Repr

/-- One input of the environment (60_exceptions R210; 70_reset R231; 20_memory R54), or the sequencer's turn
(60_exceptions R211). -/
inductive Input where
  /-- A caller offers a command frame (10_state R26). -/
  | frame (f : Frame)
  /-- The transport answers the outstanding send (10_state R27). -/
  | answer (a : Answer)
  /-- The transport answers a send that a power-on reset abandoned (70_reset R231). -/
  | lateAnswer (a : Answer)
  /-- The clock's reading advances by `d` (10_state R28); `d` may be 0. -/
  | clock (d : Nat)
  /-- The sequencer takes the transition it has enabled, if any. -/
  | sequencer
  /-- A caller sends a message of its own through the transport (20_memory R54). -/
  | callerSend (m : Message)
  /-- Power-on reset; `settleStart` is the unspecified value that `rs_settle_start` takes (70_reset R230; log 4). -/
  | powerOn (settleStart : Nat)
  deriving DecidableEq, Repr

/-- Why the machine can stop. No command raises one. -/
inductive Fault where
  /-- Raised by the inputs `answer` and `lateAnswer` when no send awaits such an answer: the transport broke the
  contract of 10_state R27, and the spec says nothing of what follows (log 11: safe). -/
  | unsolicitedAnswer
  deriving DecidableEq, Repr

/-- Why the model gives no meaning. -/
inductive Refusal where
  /-- Raised by exec for an instruction without a meaning; every instruction has one, so nothing raises it (safe). -/
  | notModelled (mnemonic : String)
  /-- Raised by configure and step for a configuration that breaks 00_scope R8: R9 says that a model refuses it
  (log 18: safe). -/
  | illFormedConfig
  deriving DecidableEq, Repr

/-- The whole machine. The registers rs_… are the block's (10_state R21); `cfg` is its configuration, which holds
HeaderROM (R24, R31); the other fields are the ports and the schedule (log 1, 5, 7, 8, 9, 12). -/
structure State where
  /-- The configuration (00_scope R8); no step changes it. -/
  cfg : Config
  /-- `rs_phase`. -/
  rsPhase : Phase
  /-- `rs_index`: the next message of the current batch. -/
  rsIndex : Nat
  /-- `rs_pending`: a send is offered and not answered. -/
  rsPending : Bool
  /-- `rs_settle_start`: the clock's reading when SETTLE was entered. -/
  rsSettleStart : Nat
  /-- `rs_result`. -/
  rsResult : RsResult
  /-- The clock port's reading, in ticks (10_state R28). -/
  clock : Nat
  /-- How many callers hold a Reset frame that is not accepted yet (10_state R26). -/
  held : Nat
  /-- How many abandoned sends the transport has not answered yet (70_reset R231). -/
  abandoned : Nat
  /-- The encoder result port, oldest first (10_state R29). -/
  results : List Result
  /-- The transport port, oldest first (10_state R27). -/
  transport : List TransportEvent
  /-- The reset status port, oldest first (10_state R30). -/
  statuses : List Status
  /-- The environment's schedule, next input first. -/
  inputs : List Input
  deriving DecidableEq, Repr

/-- The state right after power-on reset, for a configuration (10_state R31; 70_reset R230). `rs_settle_start` is
unspecified there: 0 (log 3, DESIGN CHOICE: unsafe). -/
def State.powerOn (c : Config) : State where
  cfg := c
  rsPhase := .idle
  rsIndex := 0
  rsPending := false
  rsSettleStart := 0
  rsResult := .none
  clock := 0
  held := 0
  abandoned := 0
  results := []
  transport := []
  statuses := []
  inputs := []

/-- The state right after power-on reset, with the default configuration (log 2). -/
def State.reset : State := State.powerOn Config.default

end Sys2Proof.Machine
end

