-- ==== Sys2Proof/Machine/Operands.lean ====
section
/-! DEFINITION. Operands: the check primitive, the operand domains (30_encoding R70 to R79), the shared functions
NormChar and Upper (R80, R81), the LCD checks (43_sysex_lcd R141) and the header table (10_state R24). -/

namespace Sys2Proof.Machine

/-- `require p else e`: the first check that fails ends the command, and nothing after it is evaluated
(00_scope R14). -/
def require (p : Bool) (e : DomainError) (rest : Result) : Result := if p then rest else .error e

/-- A narrow byte of an exact sum (00_scope R10: every sum is exact; each use is range-checked first). -/
def byteOf (n : Nat) : Byte := BitVec.ofNat 8 n

/-- R70: a Channel is 0..8. -/
def channelOk (ch : Byte) : Bool := ch.toNat ≤ Config.masterCh

/-- The bus that equals a Channel (42_channel_voice R114). -/
def channelBus (ch : Byte) : Bus := BitVec.ofNat 4 ch.toNat

/-- R71: a Switch is below `LenIDs`. -/
def switchOk (c : Config) (sw : Byte) : Bool := sw.toNat < c.lenIDs

/-- R72: a State is `StateOn` or `StateOff`. -/
def ledStateOk (c : Config) (state : Byte) : Bool := state == c.stateOn || state == c.stateOff

/-- R74: a position is 0..16382. -/
def positionOk (pos : Word16) : Bool := pos.toNat ≤ Config.faderMax

/-- R75: the exact sum of mode and LED. -/
def vpotSum (mode led : Byte) : Nat := mode.toNat + led.toNat

/-- R75: the sum fits a byte. -/
def vpotSumOk (mode led : Byte) : Bool := vpotSum mode led ≤ 0xFF

/-- R76: a meter level is 0..15. -/
def levelOk (level : Byte) : Bool := level.toNat < 16

/-- R77: a Digit is below `LenDigits`. -/
def digitOk (c : Config) (digit : Byte) : Bool := digit.toNat < c.lenDigits

/-- R79: the variant encoding 0 = STD, 1 = XT, 2 = C4. -/
def variantOf (v : Byte) : Option Variant :=
  match v.toNat with
  | 0 => some .std
  | 1 => some .xt
  | 2 => some .c4
  | _ => none

/-- R79: a C4 row is below `LenC4Rows`. -/
def rowOk (c : Config) (row : Byte) : Bool := row.toNat < c.lenC4Rows

/-- R79: an LCD text byte is at most 0x7F. -/
def textOk (text : Text) : Bool := text.all Config.dataByte

/-- The first check of R141: the offset lies on the display. -/
def lcdOffsetOk (size : Nat) (off : Byte) : Bool := off.toNat < size

/-- The second check of R141: the text ends on the display. -/
def lcdLengthOk (size : Nat) (off : Byte) (text : Text) : Bool := off.toNat + text.length ≤ size

/-- `LCDCheckOffset` of R141. -/
def lcdCheckOffset (size : Nat) (off : Byte) (rest : Result) : Result :=
  require (lcdOffsetOk size off) .lcdRange rest

/-- `LCDCheckText` of R141: the length before the characters. -/
def lcdCheckText (size : Nat) (off : Byte) (text : Text) (rest : Result) : Result :=
  require (lcdLengthOk size off text) .lcdRange <| require (textOk text) .textChar rest

/-- `NormChar` (30_encoding R80): one subtraction of 0x40 in the two shadow ranges. -/
def normChar (v : Byte) : Byte :=
  if (0x40 ≤ v.toNat && v.toNat ≤ 0x60) || (0x80 ≤ v.toNat && v.toNat ≤ 0xA0) then v - Config.dotShift else v

/-- `Upper` (30_encoding R81): ASCII a..z only. -/
def upper (b : Byte) : Byte := if 0x61 ≤ b.toNat && b.toNat ≤ 0x7A then b - 0x20 else b

/-- `HeaderROM[v]` (10_state R24): the configured header, never written. -/
def headerROM (c : Config) (v : Variant) : List Byte := (c.header v).bytes

end Sys2Proof.Machine
end

