-- ==== Sys2Proof/Machine/Flags.lean ====
section
/-! DEFINITION. The block's one flag, rs_result (10_state R23), and the error codes (60_exceptions R201). -/

namespace Sys2Proof.Machine

/-- The numeric code of a domain error (60_exceptions R201). -/
def DomainError.code : DomainError → Byte
  | .illegalCmd => 0x01
  | .frame => 0x02
  | .switch => 0x03
  | .state => 0x04
  | .channel => 0x05
  | .position => 0x06
  | .vpotSum => 0x07
  | .level => 0x08
  | .digit => 0x09
  | .lcdRange => 0x0A
  | .textChar => 0x0B
  | .row => 0x0C
  | .variant => 0x0D

/-- The code of a transport error (60_exceptions R201). -/
def transportErrorCode : Byte := 0x10

/-- The domain error of a frame that encodes no command (30_encoding R65; 60_exceptions R204). -/
def frameError : DecodeError → DomainError
  | .emptyFrame => .frame
  | .illegalOpcode _ => .illegalCmd
  | .badLength => .frame

/-- The code a status carries (60_exceptions R201); `OK` carries none. -/
def statusCode : Status → Option Byte
  | .ok => none
  | .transportErr _ => some transportErrorCode

/-- `rs_result` at the end of a Reset command, for the status it reports (10_state R30: the status has the value of
rs_result). -/
def resultOfStatus : Status → RsResult
  | .ok => .ok
  | .transportErr e => .err e

/-- Write `rs_result` and report it on the reset status port (10_state R23, R30). -/
def report (st : Status) (s : State) : State :=
  { s with rsResult := resultOfStatus st, statuses := s.statuses ++ [st] }

end Sys2Proof.Machine
end

