-- ==== Sys2Proof/Machine/Ops.lean ====
section
/-! DEFINITION. Shared operations: the encoder result port, domain error entry, the transport port, transport error
entry, holding a Reset frame. The block has no memory and no general register (10_state R20; 20_memory R40), so these
are its only operations on state.

Return from an error: no return instruction and no handler exist (60_exceptions R205). After domain error entry, and
after transport error entry, the state is already one that accepts the next command. -/

namespace Sys2Proof.Machine

/-- What one step of this machine answers. -/
abbrev Outcome := Host.Outcome State Fault Refusal

/-- Return one result on the encoder result port (10_state R29). -/
def emit (r : Result) (s : State) : State := { s with results := s.results ++ [r] }

/-- Domain error entry (60_exceptions R203): `err(code)` goes out on the encoder result port; no message is built and no
other state changes. -/
def takeDomainError (e : DomainError) (s : State) : State := emit (.error e) s

/-- End an encoder or header command with its result (00_scope R13): `Emit`, or domain error entry. -/
def finish (r : Result) (s : State) : Outcome :=
  match r with
  | .messages ms => .next (emit (.messages ms) s)
  | .bytes bs => .next (emit (.bytes bs) s)
  | .error e => .next (takeDomainError e s)

/-- Something happens on the transport port at the present clock reading. -/
def onTransport (a : PortAction) (s : State) : State :=
  { s with transport := s.transport ++ [⟨s.clock, a⟩] }

/-- Offer a message on the transport port and wait (44_reset_sequencer R173). -/
def offerSend (m : Message) (s : State) : State := { onTransport (.offered m) s with rsPending := true }

/-- The outstanding send succeeded (44_reset_sequencer R175). -/
def acknowledgeSend (s : State) : State :=
  { onTransport (.answered .ok) s with rsPending := false, rsIndex := s.rsIndex + 1 }

/-- Transport error entry (60_exceptions R207; 44_reset_sequencer R174): the send is over, rs_result is `ERR(e)`, the
sequencer is idle, and the status is reported. -/
def takeTransportError (e : TransportError) (s : State) : State :=
  report (.transportErr e) { onTransport (.answered (.err e)) s with rsPending := false, rsPhase := .idle }

/-- The transport answers the outstanding send (10_state R27). -/
def takeAnswer (a : Answer) (s : State) : State :=
  match a with
  | .ok => acknowledgeSend s
  | .err e => takeTransportError e s

/-- A Reset frame that is not accepted stays on the command port (10_state R26; 60_exceptions R212). -/
def holdReset (s : State) : State := { s with held := s.held + 1 }

/-- Power-on reset of the block while it may be running (70_reset R230, R231): the registers take their power-on
values, `rs_settle_start` any value `x`; nothing is reported; an outstanding send is abandoned. The configuration, the
clock, the callers' held frames and what already crossed the ports stay. -/
def powerOnReset (x : Nat) (s : State) : State :=
  { s with
    rsPhase := .idle, rsIndex := 0, rsPending := false, rsSettleStart := x, rsResult := .none,
    abandoned := s.abandoned + (if s.rsPending then 1 else 0) }

/-- Configuration time (00_scope R9; 70_reset R234): an ill-formed configuration is refused, any other gives the
power-on state. -/
def configure (c : Config) : Outcome :=
  if c.wf then .next (State.powerOn c) else .refused .illFormedConfig

end Sys2Proof.Machine
end

