-- ==== Sys2Proof/Machine/ChannelVoice.lean ====
section
/-! DEFINITION. The channel-voice encoders (42_channel_voice): what each returns for its operands and configuration, and
each command's meaning. Checks go left to right in frame order (R110). -/

namespace Sys2Proof.Machine

/-! ### Switch LEDs -/

/-- R111. -/
def ledResult (c : Config) (sw state : Byte) : Result :=
  require (switchOk c sw) .switch <|
  require (ledStateOk c state) .state <|
  .messages [.noteOn Config.ledBus sw state]

/-- R112. -/
def offResult (c : Config) (sw : Byte) : Result :=
  require (switchOk c sw) .switch <|
  .messages [.noteOff Config.ledBus sw 0x00]

/-- R113. -/
def offVelocityResult (c : Config) (sw vel : Byte) : Result :=
  require (switchOk c sw) .switch <|
  .messages [.noteOff Config.ledBus sw vel]

/-! ### Motor faders -/

/-- The bend of a position: the exact difference with 8191 (R114). -/
def bendOf (pos : Word16) : Int := (pos.toNat : Int) - Config.faderBias

/-- R114. -/
def faderResult (ch : Byte) (pos : Word16) : Result :=
  require (channelOk ch) .channel <|
  require (positionOk pos) .position <|
  .messages [.pitchBend (channelBus ch) (bendOf pos)]

/-! ### V-Pot rings -/

/-- R118. -/
def vpotResult (ch mode led : Byte) : Result :=
  require (channelOk ch) .channel <|
  require (vpotSumOk mode led) .vpotSum <|
  .messages [.cc Config.vpotBus (byteOf (Config.vpotBase + ch.toNat)) (byteOf (vpotSum mode led))]

/-! ### Meters -/

/-- R121. -/
def meterResult (ch level : Byte) : Result :=
  require (channelOk ch) .channel <|
  require (levelOk level) .level <|
  .messages [.chanPressure Config.meterBus (byteOf (ch.toNat * 16 + level.toNat))]

/-! ### Digits and the timecode strip -/

/-- R124. -/
def digitResult (c : Config) (digit char : Byte) : Result :=
  require (digitOk c digit) .digit <|
  .messages [.cc Config.digitBus (byteOf (Config.digitBase + digit.toNat)) (normChar char)]

/-- The data bytes of the strip, rightmost cell first: truncate, upper-case, normalize, reverse (R126, R127). -/
def timeCells (text : Text) : List Byte :=
  (((text.take Config.timeDisplayLen).map upper).map normChar).reverse

/-- One message per cell, in increasing position from `k` (R127). -/
def timeMessages (k : Nat) : List Byte → List Message
  | [] => []
  | b :: rest => .cc Config.digitBus (byteOf (Config.digitBase + k)) b :: timeMessages (k + 1) rest

/-- R127. -/
def timeResult (text : Text) : Result := .messages (timeMessages 0 (timeCells text))

/-! ### Meanings -/

/-- SetLED (R111). -/
def execSetLED (sw state : Byte) (s : State) : Outcome := finish (ledResult s.cfg sw state) s

/-- SendOff (R112). -/
def execSendOff (sw : Byte) (s : State) : Outcome := finish (offResult s.cfg sw) s

/-- SendOffVelocity (R113). -/
def execSendOffVelocity (sw vel : Byte) (s : State) : Outcome := finish (offVelocityResult s.cfg sw vel) s

/-- SetFaderPos (R114). -/
def execSetFaderPos (ch : Byte) (pos : Word16) (s : State) : Outcome := finish (faderResult ch pos) s

/-- SetVPot (R118). -/
def execSetVPot (ch mode led : Byte) (s : State) : Outcome := finish (vpotResult ch mode led) s

/-- SetMeter (R121). -/
def execSetMeter (ch level : Byte) (s : State) : Outcome := finish (meterResult ch level) s

/-- SetDigit (R124). -/
def execSetDigit (digit char : Byte) (s : State) : Outcome := finish (digitResult s.cfg digit char) s

/-- SetTimeDisplay (R127). -/
def execSetTimeDisplay (text : Text) (s : State) : Outcome := finish (timeResult text) s

end Sys2Proof.Machine
end

