-- ==== Sys2Proof/Machine/HeaderRegistry.lean ====
section
/-! DEFINITION. The header registry (41_header_registry). -/

namespace Sys2Proof.Machine

/-- R100: the header of a variant, as bytes. -/
def headerResult (c : Config) (variant : Byte) : Result :=
  match variantOf variant with
  | some v => .bytes (headerROM c v)
  | none => .error .variant

/-- HeaderFor (R100). -/
def execHeaderFor (variant : Byte) (s : State) : Outcome := finish (headerResult s.cfg variant) s

end Sys2Proof.Machine
end

