-- ==== Sys2Proof/Machine/SysExLcd.lean ====
section
/-! DEFINITION. The SysEx LCD encoders (43_sysex_lcd): one SysEx record each, header, frame byte, offset, text (R140). -/

namespace Sys2Proof.Machine

/-- The payload of R140. -/
def lcdPayload (c : Config) (v : Variant) (frameByte offset : Byte) (text : Text) : List Byte :=
  headerROM c v ++ [frameByte, offset] ++ text

/-- R142. -/
def lcdResult (c : Config) (offset : Byte) (text : Text) : Result :=
  lcdCheckOffset (c.lcdSize .std) offset <|
  lcdCheckText (c.lcdSize .std) offset text <|
  .messages [.sysEx (lcdPayload c .std c.lcdFrameByte offset text)]

/-- R143. -/
def lcdXTResult (c : Config) (offset : Byte) (text : Text) : Result :=
  lcdCheckOffset (c.lcdSize .xt) offset <|
  lcdCheckText (c.lcdSize .xt) offset text <|
  .messages [.sysEx (lcdPayload c .xt c.lcdFrameByte offset text)]

/-- The row selector `0x30 + row` (R144). -/
def rowByte (row : Byte) : Byte := byteOf (Config.c4RowBase + row.toNat)

/-- R144: offset, then row, then text. -/
def lcdC4Result (c : Config) (offset row : Byte) (text : Text) : Result :=
  lcdCheckOffset (c.lcdSize .c4) offset <|
  require (rowOk c row) .row <|
  lcdCheckText (c.lcdSize .c4) offset text <|
  .messages [.sysEx (lcdPayload c .c4 (rowByte row) offset text)]

/-- SetLCD (R142). -/
def execSetLCD (offset : Byte) (text : Text) (s : State) : Outcome := finish (lcdResult s.cfg offset text) s

/-- SetLCDXT (R143). -/
def execSetLCDXT (offset : Byte) (text : Text) (s : State) : Outcome := finish (lcdXTResult s.cfg offset text) s

/-- SetLCDC4 (R144). -/
def execSetLCDC4 (offset row : Byte) (text : Text) (s : State) : Outcome :=
  finish (lcdC4Result s.cfg offset row text) s

end Sys2Proof.Machine
end

