-- ==== Sys2Proof/Machine/ResetSequencer.lean ====
section
/-! DEFINITION. The reset sequencer (44_reset_sequencer): the two batches, the transitions R172 to R178, the Reset
command. -/

namespace Sys2Proof.Machine

/-- The encoder and the header registry as one function of configuration and command (10_state R20); Reset has no
encoder result. -/
def encoderResult (c : Config) : Instr → Option Result
  | .setLED sw state => some (ledResult c sw state)
  | .sendOff sw => some (offResult c sw)
  | .sendOffVelocity sw vel => some (offVelocityResult c sw vel)
  | .setFaderPos ch pos => some (faderResult ch pos)
  | .setVPot ch mode led => some (vpotResult ch mode led)
  | .setMeter ch level => some (meterResult ch level)
  | .setDigit digit char => some (digitResult c digit char)
  | .setTimeDisplay text => some (timeResult text)
  | .setLCD offset text => some (lcdResult c offset text)
  | .setLCDXT offset text => some (lcdXTResult c offset text)
  | .setLCDC4 offset row text => some (lcdC4Result c offset row text)
  | .headerFor variant => some (headerResult c variant)
  | .reset => none

/-! ### The batches -/

/-- The messages of a result; none for an error or a header. -/
def messagesOf : Option Result → List Message
  | some (.messages ms) => ms
  | some (.bytes _) => []
  | some (.error _) => []
  | none => []

/-- The eight strips, Master left out (R162). -/
def strips : List Nat := List.range (Config.lenChannels - 1)

/-- All nine Channels (R162). -/
def channels : List Nat := List.range Config.lenChannels

/-- The write that blanks line `i` of the standard display (R163, R164, R170). -/
def blankLine (c : Config) (i : Nat) : Instr :=
  .setLCD (byteOf (i * c.lineWidth)) (List.replicate c.lineWidth 0x20)

/-- The commands of one family in phase A, in increasing index (R162, R163). -/
def familyA (c : Config) : Family → List Instr
  | .led => (List.range c.lenIDs).map fun s => .setLED (byteOf s) c.stateOn
  | .fader => channels.map fun ch => .setFaderPos (byteOf ch) (BitVec.ofNat 16 Config.faderMax)
  | .vpot => strips.map fun ch => .setVPot (byteOf ch) c.vpotMode3 c.vpotLEDCenter
  | .meter => strips.map fun ch => .setMeter (byteOf ch) c.meterClipping
  | .digit => (List.range c.lenDigits).map fun d => .setDigit (byteOf d) c.digitOnChar
  | .lcd => (List.range c.lenLines).map (blankLine c)

/-- The commands of one family in phase B (R162, R164): two meter writes a Channel, clip-off first. -/
def familyB (c : Config) : Family → List Instr
  | .led => (List.range c.lenIDs).map fun s => .setLED (byteOf s) c.stateOff
  | .fader => channels.map fun ch => .setFaderPos (byteOf ch) (BitVec.ofNat 16 0)
  | .vpot => strips.map fun ch => .setVPot (byteOf ch) c.vpotMode0 c.vpotLEDOff
  | .meter => strips.flatMap fun ch =>
      [.setMeter (byteOf ch) c.meterClipOff, .setMeter (byteOf ch) c.meterLessThan60]
  | .digit => (List.range c.lenDigits).map fun d => .setDigit (byteOf d) c.digitOffChar
  | .lcd => (List.range c.lenLines).map (blankLine c)

/-- The messages of a list of encoder commands, in order. -/
def batchOf (c : Config) (is : List Instr) : List Message := is.flatMap fun i => messagesOf (encoderResult c i)

/-- Batch A: the families in `FamilyOrder` (R161, R163). -/
def batchA (c : Config) : List Message := batchOf c (c.familyOrder.flatMap (familyA c))

/-- Batch B: the families in `FamilyOrder` (R161, R164). -/
def batchB (c : Config) : List Message := batchOf c (c.familyOrder.flatMap (familyB c))

/-- `cur`: the batch of the present phase (part 3). -/
def currentBatch (s : State) : List Message :=
  match s.rsPhase with
  | .phaseA => batchA s.cfg
  | .phaseB => batchB s.cfg
  | .idle => []
  | .settle => []

/-! ### Transitions -/

/-- Start (R172). -/
def startReset (s : State) : State := { s with rsPhase := .phaseA, rsIndex := 0, rsPending := false }

/-- End of phase A (R176). -/
def endPhaseA (s : State) : State := { s with rsPhase := .settle, rsSettleStart := s.clock }

/-- Whether the settling interval has passed (R177). -/
def settled (s : State) : Bool := s.rsSettleStart + s.cfg.settleTicks ≤ s.clock

/-- End of the settling (R177). -/
def endSettle (s : State) : State := { s with rsPhase := .phaseB, rsIndex := 0 }

/-- End of phase B (R178). -/
def endPhaseB (s : State) : State := report .ok { s with rsPhase := .idle }

/-- Offer the next message of the batch (R173), or, at the batch's end, leave the phase by `done` (R176, R178). -/
def advanceBatch (done : State → State) (s : State) : State :=
  match (currentBatch s)[s.rsIndex]? with
  | some m => offerSend m s
  | none => if s.rsIndex = (currentBatch s).length then done s else s

/-- The sequencer's turn: it takes the transition it has enabled without a transport answer, and nothing where none is
(R172 with a held frame, R173, R176, R177, R178; R179: there are no others). -/
def sequencerTurn (s : State) : State :=
  match s.rsPhase with
  | .idle => if 0 < s.held then startReset { s with held := s.held - 1 } else s
  | .phaseA => if s.rsPending then s else advanceBatch endPhaseA s
  | .settle => if settled s then endSettle s else s
  | .phaseB => if s.rsPending then s else advanceBatch endPhaseB s

/-- Reset (R160, R172): accepted in IDLE, held in any other phase (10_state R26). -/
def execReset (s : State) : Outcome :=
  if s.rsPhase = .idle then .next (startReset s) else .next (holdReset s)

end Sys2Proof.Machine
end

