-- ==== Sys2Proof/Machine/Dispatch.lean ====
section
/-! DEFINITION. One arm per command: the meaning it calls. -/

namespace Sys2Proof.Machine

/-- The effect of one accepted command. -/
def exec (i : Instr) (s : State) : Host.Outcome State Fault Refusal :=
  match i with
  -- channel-voice encoders (42_channel_voice)
  | .setLED sw state => Sys2Proof.Machine.execSetLED sw state s
  | .sendOff sw => Sys2Proof.Machine.execSendOff sw s
  | .sendOffVelocity sw vel => Sys2Proof.Machine.execSendOffVelocity sw vel s
  | .setFaderPos ch pos => Sys2Proof.Machine.execSetFaderPos ch pos s
  | .setVPot ch mode led => Sys2Proof.Machine.execSetVPot ch mode led s
  | .setMeter ch level => Sys2Proof.Machine.execSetMeter ch level s
  | .setDigit digit char => Sys2Proof.Machine.execSetDigit digit char s
  | .setTimeDisplay text => Sys2Proof.Machine.execSetTimeDisplay text s
  -- SysEx LCD encoders (43_sysex_lcd)
  | .setLCD offset text => Sys2Proof.Machine.execSetLCD offset text s
  | .setLCDXT offset text => Sys2Proof.Machine.execSetLCDXT offset text s
  | .setLCDC4 offset row text => Sys2Proof.Machine.execSetLCDC4 offset row text s
  -- header registry (41_header_registry)
  | .headerFor variant => Sys2Proof.Machine.execHeaderFor variant s
  -- reset sequencer (44_reset_sequencer)
  | .reset => Sys2Proof.Machine.execReset s

end Sys2Proof.Machine
end

