-- ==== Sys2Proof/Machine/Inputs.lean ====
section
/-! DEFINITION. What each input does (60_exceptions R210; 10_state R26 to R28; 70_reset R231; 20_memory R54). -/

namespace Sys2Proof.Machine

/-- A frame on the command port (10_state R26): the command it encodes runs; a frame that encodes none is answered with
its domain error, in every phase (30_encoding R65, R66; 60_exceptions R204; log 10). -/
def acceptFrame (f : Frame) (s : State) : Outcome :=
  match decode f with
  | .ok i => exec i s
  | .error e => .next (takeDomainError (frameError e) s)

/-- An answer of the transport: taken while a send is outstanding (44_reset_sequencer R174, R175). -/
def acceptAnswer (a : Answer) (s : State) : Outcome :=
  if s.rsPending then .next (takeAnswer a s) else .fault .unsolicitedAnswer

/-- An answer to a send that a power-on reset abandoned is ignored, whatever it says (70_reset R231). -/
def ignoreAnswer (s : State) : Outcome :=
  if 0 < s.abandoned then .next { s with abandoned := s.abandoned - 1 } else .fault .unsolicitedAnswer

/-- The clock advances (10_state R28). -/
def advanceClock (d : Nat) (s : State) : State := { s with clock := s.clock + d }

/-- Take one input. -/
def takeInput (x : Input) (s : State) : Outcome :=
  match x with
  | .frame f => acceptFrame f s
  | .answer a => acceptAnswer a s
  | .lateAnswer _ => ignoreAnswer s
  | .clock d => .next (advanceClock d s)
  | .sequencer => .next (sequencerTurn s)
  | .callerSend m => .next (onTransport (.callerSent m) s)
  | .powerOn x => .next (powerOnReset x s)

/-- One move of the block: the schedule's next input, or, with none left, the sequencer's turn (log 5, log 6). -/
def move (s : State) : Outcome :=
  match s.inputs with
  | [] => .next (sequencerTurn s)
  | x :: rest => takeInput x { s with inputs := rest }

/-- The schedule with one more input in front. -/
def withInput (x : Input) (s : State) : State := { s with inputs := x :: s.inputs }

end Sys2Proof.Machine
end

