-- ==== Sys2Proof/Machine/Step.lean ====
section
/-! DEFINITION. One step of the machine, and how an instruction word is placed where the next step takes it. -/

namespace Sys2Proof.Machine

/-- One step. A machine with an ill-formed configuration does not exist (00_scope R9; log 18). -/
def step (s : State) : Host.Outcome State Fault Refusal :=
  if s.cfg.wf then move s else .refused .illFormedConfig

/-- `s` with the frame of a table word offered next on the command port (log 5, log 20). -/
def State.withFetchWord (s : State) (nbits w : Nat) : State := withInput (.frame (tableFrame nbits w)) s

end Sys2Proof.Machine
end

