-- ==== Sys2Proof/Machine/Asm.lean ====
section
/-! DEFINITION. The assembler text form (30_encoding R68): one command per line, read under a configuration, because a
symbolic operand stands for its configured value. No command of the block uses it; the spec defines it for its own test
programs. What R68 leaves open (blanks, spelling, an operand too wide for its field) is log 21;
in which operands a symbolic name may stand is log 25. -/

namespace Sys2Proof.Machine

/-- A blank between the parts of a line. -/
def isBlank (ch : Char) : Bool := ch == ' ' || ch == '\t'

/-- A piece of a line without the blanks around it. -/
def trimBlanks (cs : List Char) : List Char := ((cs.dropWhile isBlank).reverse.dropWhile isBlank).reverse

/-- The pieces between the commas that stand outside double quotes; `acc` holds the current piece, reversed. -/
def splitOperands (quoted : Bool) (acc : List Char) : List Char → List (List Char)
  | [] => [acc.reverse]
  | ch :: rest =>
    if ch == ',' && !quoted then acc.reverse :: splitOperands quoted [] rest
    else splitOperands (if ch == '"' then !quoted else quoted) (ch :: acc) rest

/-- The value of a digit, hexadecimal ones included. -/
def digitValue (ch : Char) : Option Nat :=
  if '0' ≤ ch && ch ≤ '9' then some (ch.toNat - '0'.toNat)
  else if 'a' ≤ ch && ch ≤ 'f' then some (ch.toNat - 'a'.toNat + 10)
  else if 'A' ≤ ch && ch ≤ 'F' then some (ch.toNat - 'A'.toNat + 10)
  else none

/-- The digits of a base, read after the value `n`. -/
def digitsFrom (base n : Nat) : List Char → Option Nat
  | [] => some n
  | ch :: rest =>
    match digitValue ch with
    | some d => if d < base then digitsFrom base (base * n + d) rest else none
    | none => none

/-- A number: decimal, or hexadecimal written `0x..` (R68). -/
def readNumber : List Char → Option Nat
  | [] => none
  | '0' :: 'x' :: d :: rest => digitsFrom 16 0 (d :: rest)
  | d :: rest => digitsFrom 10 0 (d :: rest)

/-- The symbolic operand names of R68 with their configured values. -/
def symbols (c : Config) : List (List Char × Nat) :=
  [("CH1".toList, 0), ("CH2".toList, 1), ("CH3".toList, 2), ("CH4".toList, 3), ("CH5".toList, 4),
   ("CH6".toList, 5), ("CH7".toList, 6), ("CH8".toList, 7), ("MASTER".toList, Config.masterCh)] ++
  [("StateOn".toList, c.stateOn.toNat), ("StateOff".toList, c.stateOff.toNat)] ++
  [("LessThan60".toList, c.meterLessThan60.toNat), ("Clipping".toList, c.meterClipping.toNat),
   ("ClipOff".toList, c.meterClipOff.toNat)] ++
  [("VPotMode0".toList, c.vpotMode0.toNat), ("VPotMode3".toList, c.vpotMode3.toNat),
   ("VPotLEDCenter".toList, c.vpotLEDCenter.toNat), ("VPotLEDOff".toList, c.vpotLEDOff.toNat)]

/-- The variant names of R68. -/
def variantNames : List (List Char × Nat) := [("STD".toList, 0), ("XT".toList, 1), ("C4".toList, 2)]

/-- The mnemonics of R61. -/
def mnemonics : List (List Char × Opcode) :=
  [("SetLED".toList, .setLED), ("SendOff".toList, .sendOff), ("SendOffVelocity".toList, .sendOffVelocity),
   ("SetFaderPos".toList, .setFaderPos), ("SetVPot".toList, .setVPot), ("SetMeter".toList, .setMeter),
   ("SetDigit".toList, .setDigit)] ++
  [("SetTimeDisplay".toList, .setTimeDisplay), ("SetLCD".toList, .setLCD), ("SetLCDXT".toList, .setLCDXT),
   ("SetLCDC4".toList, .setLCDC4), ("HeaderFor".toList, .headerFor), ("Reset".toList, .reset)]

/-- A number or a symbolic name. R68 says which names are accepted and what each stands for, and not in which operands:
any of them may stand in any numeric operand (log 25, DESIGN CHOICE: unsafe). -/
def readValue (c : Config) (cs : List Char) : Option Nat :=
  match readNumber cs with
  | some n => some n
  | none => (symbols c).lookup cs

/-- An operand of one byte. -/
def readByte (c : Config) (cs : List Char) : Option Byte :=
  match readValue c cs with
  | some n => if n < 256 then some (byteOf n) else none
  | none => none

/-- The 16-bit position operand. -/
def readPosition (c : Config) (cs : List Char) : Option Word16 :=
  match readValue c cs with
  | some n => if n < 65536 then some (BitVec.ofNat 16 n) else none
  | none => none

/-- A variant name. -/
def readVariant (cs : List Char) : Option Byte := (variantNames.lookup cs).map byteOf

/-- An ASCII character that may stand between the quotes. -/
def isTextChar (ch : Char) : Bool := ch.toNat ≤ 0x7F && ch != '"'

/-- A text in double quotes, with ASCII bytes (R68). -/
def readQuoted : List Char → Option Text
  | '"' :: rest =>
    match rest.reverse with
    | '"' :: body =>
      if body.all isTextChar then some (body.reverse.map fun ch => byteOf ch.toNat) else none
    | _ => none
  | _ => none

/-- The command of a mnemonic and its operand pieces (the lines of R68). -/
def readCommand (c : Config) (op : Opcode) (operands : List (List Char)) : Option Instr :=
  match op, operands with
  | .setLED, [a, b] => do return .setLED (← readByte c a) (← readByte c b)
  | .sendOff, [a] => do return .sendOff (← readByte c a)
  | .sendOffVelocity, [a, b] => do return .sendOffVelocity (← readByte c a) (← readByte c b)
  | .setFaderPos, [a, b] => do return .setFaderPos (← readByte c a) (← readPosition c b)
  | .setVPot, [a, b, d] => do return .setVPot (← readByte c a) (← readByte c b) (← readByte c d)
  | .setMeter, [a, b] => do return .setMeter (← readByte c a) (← readByte c b)
  | .setDigit, [a, b] => do return .setDigit (← readByte c a) (← readByte c b)
  | .setTimeDisplay, [a] => do return .setTimeDisplay (← readQuoted a)
  | .setLCD, [a, b] => do return .setLCD (← readByte c a) (← readQuoted b)
  | .setLCDXT, [a, b] => do return .setLCDXT (← readByte c a) (← readQuoted b)
  | .setLCDC4, [a, b, d] => do return .setLCDC4 (← readByte c a) (← readByte c b) (← readQuoted d)
  | .headerFor, [a] => do return .headerFor (← readVariant a)
  | .reset, [] => some .reset
  | _, _ => none

/-- One line of assembler text: a mnemonic, then operands separated by commas (R68). -/
def assembleLine (c : Config) (line : List Char) : Option Instr :=
  let text := trimBlanks line
  let operands := trimBlanks (text.dropWhile fun ch => !isBlank ch)
  match mnemonics.lookup (text.takeWhile fun ch => !isBlank ch) with
  | none => none
  | some op => readCommand c op (if operands.isEmpty then [] else (splitOperands false [] operands).map trimBlanks)

/-- The frame of one line; none for a text too long for its length byte (R64). -/
def assembleFrame (c : Config) (line : List Char) : Option Frame :=
  match assembleLine c line with
  | some i => if i.wf then some (encode i) else none
  | none => none

end Sys2Proof.Machine
end

