-- ==== Sys2Proof/Machine/Wire.lean ====
section
/-! DEFINITION. The byte serialization of message records (30_encoding R90 to R94): the reference serialization, which
gives no bytes for a record it does not cover, and the bytes the transport sends, which are then its own. Status
nibbles and the pitch-bend word are the spec's own general-knowledge decisions (log 14). -/

namespace Sys2Proof.Machine

/-- A status byte: the nibble of the message type or'd with the bus (R90). -/
def statusByte (kind : Byte) (ch : Bus) : Byte := kind ||| ch.zeroExtend 8

/-- The unsigned pitch-bend word (R91). -/
def bendWord (bend : Int) : Int := bend + Config.pitchBendCenter

/-- A bend value a record may hold (00_scope R12). -/
def bendOk (bend : Int) : Bool := decide (-8192 ≤ bend) && decide (bend ≤ 8191)

/-- The two data bytes of a pitch-bend word, low 7 bits first (R91). -/
def bendBytes (u : Nat) : List Byte := [byteOf (u % 128), byteOf (u / 128 % 128)]

/-- The reference serialization (R90, R91, R92); none where a channel-voice data field is above 0x7F (R93) or a bend
value lies outside R12's range (log 22). -/
def serialize : Message → Option (List Byte)
  | .noteOff ch key vel =>
    if Config.dataByte key && Config.dataByte vel then some [statusByte 0x80 ch, key, vel] else none
  | .noteOn ch key vel =>
    if Config.dataByte key && Config.dataByte vel then some [statusByte 0x90 ch, key, vel] else none
  | .cc ch ctrl val =>
    if Config.dataByte ctrl && Config.dataByte val then some [statusByte 0xB0 ch, ctrl, val] else none
  | .chanPressure ch val => if Config.dataByte val then some [statusByte 0xD0 ch, val] else none
  | .pitchBend ch bend =>
    if bendOk bend then some (statusByte 0xE0 ch :: bendBytes (bendWord bend).toNat) else none
  | .sysEx payload => some ([0xF0] ++ payload ++ [0xF7])

/-- The bytes on the wire: the reference serialization, or what the transport makes of a record it does not cover
(00_scope R8 `HighDataSerialize`; log 13). -/
def wireBytes (m : Message) : List Byte := (serialize m).getD (Config.highDataSerialize m)

/-- A sequence of records is serialized record by record: no running status (R94). -/
def wireStream (ms : List Message) : List Byte := ms.flatMap wireBytes

end Sys2Proof.Machine
end

