-- ==== Sys2Proof/Safety.lean ====
section
/-! DEFINITION. The terms claims are stated in: what it means for a command to be answered, what the transport port saw
of the sequencer, the invariant of the machine, and which inputs the transport's contract allows. -/

namespace Sys2Proof.Machine

/-- The command completes with the result `r`: one more result on the encoder result port, and nothing else changes
(10_state R29; 60_exceptions R203; 44_reset_sequencer R183). -/
def AnswersWith (i : Instr) (s : State) (r : Result) : Prop :=
  exec i s = .next { s with results := s.results ++ [r] }

/-! ### What the transport port saw -/

/-- The event is the sequencer's own traffic, not another sender's (20_memory R54). -/
def bySequencer (e : TransportEvent) : Bool :=
  match e.action with
  | .offered _ => true
  | .answered _ => true
  | .callerSent _ => false

/-- The sequencer's offers and their answers, in order. -/
def sequencerActions (es : List TransportEvent) : List PortAction := (es.filter bySequencer).map (·.action)

/-- Each message offered and acknowledged before the next is offered (20_memory R51). -/
def acknowledged (ms : List Message) : List PortAction := ms.flatMap fun m => [.offered m, .answered .ok]

/-- The offer whose answer is outstanding. -/
def outstanding (s : State) : List PortAction :=
  if s.rsPending then (currentBatch s)[s.rsIndex]?.toList.map .offered else []

/-- What the present phase has done of its batch. -/
def progress (s : State) : List PortAction := acknowledged ((currentBatch s).take s.rsIndex) ++ outstanding s

/-- The sequencer's events among `es` all happened at a clock reading of at most `t`. -/
def SequencerUpTo (t : Nat) (es : List TransportEvent) : Prop := ∀ e ∈ es, bySequencer e = true → e.time ≤ t

/-- The sequencer's events among `es` all happened at a clock reading of at least `t`. -/
def SequencerFrom (t : Nat) (es : List TransportEvent) : Prop := ∀ e ∈ es, bySequencer e = true → t ≤ e.time

/-- The transport port ends with a whole batch A, acknowledged by the time the settling began. -/
def DeliveredA (s : State) (run : List TransportEvent) : Prop :=
  sequencerActions run = acknowledged (batchA s.cfg) ∧ SequencerUpTo s.rsSettleStart run

/-- What the transport port saw of the running Reset command, phase by phase (44_reset_sequencer R181): a prefix of
batch A; all of batch A; all of batch A, the settling interval, and a prefix of batch B. -/
def RunHistory (s : State) : Prop :=
  match s.rsPhase with
  | .idle => True
  | .phaseA => ∃ before run, s.transport = before ++ run ∧ sequencerActions run = progress s
  | .settle => ∃ before run, s.transport = before ++ run ∧ DeliveredA s run
  | .phaseB => ∃ before runA runB, s.transport = before ++ runA ++ runB ∧ DeliveredA s runA ∧
      sequencerActions runB = progress s ∧ SequencerFrom (s.rsSettleStart + s.cfg.settleTicks) runB

/-! ### The invariant -/

/-- The bound on `rs_index` that each phase has (10_state R21, R22). -/
def indexBound (s : State) : Nat :=
  match s.rsPhase with
  | .idle => max (batchA s.cfg).length (batchB s.cfg).length
  | .phaseA => (batchA s.cfg).length
  | .settle => (batchA s.cfg).length
  | .phaseB => (batchB s.cfg).length

/-- What every step keeps. -/
structure Inv (s : State) : Prop where
  /-- The configuration meets the constraints of 00_scope R8. -/
  config : s.cfg.wf = true
  /-- `rs_index` stays within its batch (10_state R21). -/
  index : s.rsIndex ≤ indexBound s
  /-- A send is outstanding only inside a batch, for one of its messages (10_state R27). -/
  pending : s.rsPending = true → s.rsIndex < (currentBatch s).length
  /-- `SETTLE` began in the past (44_reset_sequencer R176). -/
  settle : s.rsPhase = .settle → s.rsSettleStart ≤ s.clock
  /-- `PHASE_B` runs only when the settling interval has passed (R177). -/
  barrier : s.rsPhase = .phaseB → s.rsSettleStart + s.cfg.settleTicks ≤ s.clock
  /-- No event of the transport port lies in the future (10_state R28). -/
  past : ∀ e ∈ s.transport, e.time ≤ s.clock
  /-- `rs_result` is what the last status reported, or `NONE` after power-on (10_state R23, R30). -/
  reported : s.rsResult = .none ∨ ∃ st, s.statuses.getLast? = some st ∧ resultOfStatus st = s.rsResult
  /-- The transport port saw the running Reset command as R181 says. -/
  history : RunHistory s

/-! ### Runs that do not stop -/

/-- The schedule's next input keeps the transport's contract: an answer comes only to a send that awaits it
(10_state R27; 70_reset R231). -/
def answerExpected (s : State) : Bool :=
  match s.inputs with
  | [] => true
  | .answer _ :: _ => s.rsPending
  | .lateAnswer _ :: _ => 0 < s.abandoned
  | .frame _ :: _ => true
  | .clock _ :: _ => true
  | .sequencer :: _ => true
  | .callerSend _ :: _ => true
  | .powerOn _ :: _ => true

/-- The next move is neither an answer to the outstanding send nor a power-on reset. -/
def noAnswerNext (s : State) : Bool :=
  match s.inputs with
  | [] => true
  | .answer _ :: _ => false
  | .powerOn _ :: _ => false
  | .lateAnswer _ :: _ => true
  | .frame _ :: _ => true
  | .clock _ :: _ => true
  | .sequencer :: _ => true
  | .callerSend _ :: _ => true

/-- The next move is the sequencer's turn. -/
def sequencerNext (s : State) : Bool :=
  match s.inputs with
  | [] => true
  | .sequencer :: _ => true
  | .answer _ :: _ => false
  | .lateAnswer _ :: _ => false
  | .frame _ :: _ => false
  | .clock _ :: _ => false
  | .callerSend _ :: _ => false
  | .powerOn _ :: _ => false

/-- The next move accepts a Reset frame: one offered on the command port, or, at the sequencer's turn, a held one
(44_reset_sequencer R172; log 9). It accepts it in IDLE only. -/
def acceptsReset (s : State) : Bool :=
  match s.inputs with
  | .frame f :: _ => decide (f = [0x0D])
  | [] => 0 < s.held
  | .sequencer :: _ => 0 < s.held
  | .answer _ :: _ => false
  | .lateAnswer _ :: _ => false
  | .clock _ :: _ => false
  | .callerSend _ :: _ => false
  | .powerOn _ :: _ => false

/-- The schedule in which the transport acknowledges `n` sends in turn. -/
def acknowledgedSends (n : Nat) : List Input := (List.replicate n [Input.sequencer, Input.answer .ok]).flatten

/-- The events of those sends for the messages `ms`, all at clock reading `t`. -/
def eventsAt (t : Nat) (as : List PortAction) : List TransportEvent := as.map fun a => ⟨t, a⟩

/-! ### The assembler's lines (30_encoding R68) -/

/-- The characters `cs` are the digits `ds` of a base, letters in either case. -/
def DigitsOf (base : Nat) (cs : List Char) (ds : List Nat) : Prop :=
  List.Forall₂ (fun ch d => d < base ∧ (ch = d.digitChar ∨ ch = d.digitChar.toUpper)) cs ds

/-- The number whose digits are `ds`, the most significant first. -/
def valueOf (base : Nat) (ds : List Nat) : Nat := ds.foldl (fun n d => base * n + d) 0

/-- The symbolic names of R68, each with its configured value. -/
def symbolValues (c : Config) : List (String × Nat) :=
  [("CH1", 0), ("CH2", 1), ("CH3", 2), ("CH4", 3), ("CH5", 4), ("CH6", 5), ("CH7", 6), ("CH8", 7), ("MASTER", 8),
   ("StateOn", c.stateOn.toNat), ("StateOff", c.stateOff.toNat), ("LessThan60", c.meterLessThan60.toNat),
   ("Clipping", c.meterClipping.toNat), ("ClipOff", c.meterClipOff.toNat), ("VPotMode0", c.vpotMode0.toNat),
   ("VPotMode3", c.vpotMode3.toNat), ("VPotLEDCenter", c.vpotLEDCenter.toNat), ("VPotLEDOff", c.vpotLEDOff.toNat)]

/-- The operand text `w` stands for `n`: a decimal number, a hexadecimal number written `0x..`, or a symbolic name with
its configured value, whichever operand it stands in (log 25, DESIGN CHOICE). -/
def Writes (c : Config) (w : List Char) (n : Nat) : Prop :=
  (∃ ds, ds ≠ [] ∧ DigitsOf 10 w ds ∧ n = valueOf 10 ds) ∨
  (∃ cs ds, ds ≠ [] ∧ w = '0' :: 'x' :: cs ∧ DigitsOf 16 cs ds ∧ n = valueOf 16 ds) ∨
  (∃ name, w = String.toList name ∧ (name, n) ∈ symbolValues c)

/-- The operand text `w` is `text` in double quotes, each character standing for its ASCII byte. -/
def Quotes (w : List Char) (text : Text) : Prop :=
  ∃ body : List Char, (∀ ch ∈ body, ch.toNat ≤ 0x7F ∧ ch ≠ '"') ∧ w = '"' :: body ++ ['"'] ∧
    text = body.map fun ch => BitVec.ofNat 8 ch.toNat

/-- An operand text of one word: not empty, and without a blank, a comma or a quote. -/
def OneWord (w : List Char) : Prop := w ≠ [] ∧ ∀ ch ∈ w, ch ≠ ' ' ∧ ch ≠ '\t' ∧ ch ≠ ',' ∧ ch ≠ '"'

/-- The line of a mnemonic and its operands: a blank after the mnemonic, commas between the operands. -/
def lineOf (mnemonic : String) (operands : List (List Char)) : List Char :=
  mnemonic.toList ++ (if operands.isEmpty then [] else ' ' :: [',', ' '].intercalate operands)

/-- How many operands each mnemonic's line has. -/
def operandCounts : List (String × Nat) :=
  [("SetLED", 2), ("SendOff", 1), ("SendOffVelocity", 2), ("SetFaderPos", 2), ("SetVPot", 3), ("SetMeter", 2),
   ("SetDigit", 2), ("SetTimeDisplay", 1), ("SetLCD", 2), ("SetLCDXT", 2), ("SetLCDC4", 3), ("HeaderFor", 1),
   ("Reset", 0)]

end Sys2Proof.Machine
end

