-- ==== Sys2Proof/Certificates/Slice0/Obligations.lean ====
section
/-! DEFINITION. The statements about the machine, each from the rule of the spec its docstring names. `AnswersWith i s r`
says that the command completes, returns exactly `r`, and changes nothing else. Wherever `serialize` gives bytes for a
channel-voice record, the status nibbles and the pitch-bend word are the spec's decisions D28 and D29 (log 14). -/

open Sys2Proof Sys2Proof.Machine

/-! ### Frames (30_encoding part 1) -/

/-- A step whose next input is a frame that encodes a command is that command's effect, the input being used up
(10_state R26; 30_encoding R60). -/
def Obligations.StepRunsTheDecodedCommand : Prop :=
  ∀ (s : State) (f : Frame) (rest : List Input) (i : Instr),
    s.cfg.wf = true → s.inputs = .frame f :: rest → decode f = .ok i →
    step s = exec i { s with inputs := rest }

/-- 30_encoding R65: which frames are well-formed, and the error each other frame is answered with, the empty frame
first, then the opcode, then the length. The rule rests on the spec's own decisions (D3, D15). -/
def Obligations.IllFormedFramesReturnTheirError : Prop :=
  ∀ (s : State) (f : Frame) (rest : List Input),
    s.cfg.wf = true → s.inputs = .frame f :: rest →
    (f = [] → step s = .next { s with inputs := rest, results := s.results ++ [.error .frame] }) ∧
    (∀ op operands, f = op :: operands → (op.toNat = 0 ∨ 0x0E ≤ op.toNat) →
      step s = .next { s with inputs := rest, results := s.results ++ [.error .illegalCmd] }) ∧
    (∀ op operands o, f = op :: operands → opcodeOf op = some o → frameLength (formatOf o) f ≠ some f.length →
      step s = .next { s with inputs := rest, results := s.results ++ [.error .frame] }) ∧
    (∀ op operands o, f = op :: operands → opcodeOf op = some o → frameLength (formatOf o) f = some f.length →
      ∃ i, decode f = .ok i)

/-- Decoding the frame of any well-formed command gives the command back, with every operand (30_encoding R61 to R64). -/
def Obligations.DecodeInvertsEncode : Prop := ∀ i : Instr, i.wf = true → decode (encode i) = .ok i

/-- A frame that encodes a command is that command's own frame, so each command has one frame (30_encoding R60, R65). -/
def Obligations.DecodedFramesAreCanonical : Prop :=
  ∀ (f : Frame) (i : Instr), decode f = .ok i → i.wf = true ∧ encode i = f

/-- Frames written out from 30_encoding R61 and R62, one a command. -/
def Obligations.WrittenOutFramesDecode : Prop :=
  decode [0x01, 0x10, 0x7F] = .ok (.setLED 0x10 0x7F) ∧
  decode [0x02, 0x10] = .ok (.sendOff 0x10) ∧
  decode [0x03, 0x10, 0x01] = .ok (.sendOffVelocity 0x10 0x01) ∧
  decode [0x04, 0x00, 0xFE, 0x3F] = .ok (.setFaderPos 0x00 16382) ∧
  decode [0x05, 0x07, 0x30, 0x40] = .ok (.setVPot 0x07 0x30 0x40) ∧
  decode [0x06, 0x02, 0x0E] = .ok (.setMeter 0x02 0x0E) ∧
  decode [0x07, 0x01, 0x41] = .ok (.setDigit 0x01 0x41) ∧
  decode [0x08, 0x03, 0x41, 0x42, 0x43] = .ok (.setTimeDisplay [0x41, 0x42, 0x43]) ∧
  decode [0x09, 0x6F, 0x01, 0x41] = .ok (.setLCD 0x6F [0x41]) ∧
  decode [0x0A, 0x00, 0x02, 0x48, 0x49] = .ok (.setLCDXT 0x00 [0x48, 0x49]) ∧
  decode [0x0B, 0x37, 0x03, 0x01, 0x7A] = .ok (.setLCDC4 0x37 0x03 [0x7A]) ∧
  decode [0x0C, 0x02] = .ok (.headerFor 0x02) ∧
  decode [0x0D] = .ok .reset

/-- 30_encoding R68: the command that each line of the assembler names, for every way of writing its operands (decimal
and hexadecimal numbers, symbolic names, variant names, quoted texts); a line with another number of operands names none;
and a line's frame decodes to its command. The rule rests on the spec's own decisions (D3, D4). The blanks, letters of
either case as hexadecimal digits, and the refusal of a wrong number of operands are the model's choice (log 21), and so
is that every symbolic name may stand in every numeric operand (log 25, DESIGN CHOICE). -/
def Obligations.AssemblerReadsItsLines : Prop :=
  ∀ c : Config,
    (∀ (a b d q : List Char) (m n p : Nat) (text : Text),
      Writes c a m → Writes c b n → Writes c d p → Quotes q text → m < 256 → p < 256 →
      (n < 65536 →
        assembleLine c (lineOf "SetFaderPos" [a, b]) = some (.setFaderPos (BitVec.ofNat 8 m) (BitVec.ofNat 16 n))) ∧
      (n < 256 →
        assembleLine c (lineOf "SetLED" [a, b]) = some (.setLED (BitVec.ofNat 8 m) (BitVec.ofNat 8 n)) ∧
        assembleLine c (lineOf "SendOffVelocity" [a, b]) =
          some (.sendOffVelocity (BitVec.ofNat 8 m) (BitVec.ofNat 8 n)) ∧
        assembleLine c (lineOf "SetVPot" [a, b, d]) =
          some (.setVPot (BitVec.ofNat 8 m) (BitVec.ofNat 8 n) (BitVec.ofNat 8 p)) ∧
        assembleLine c (lineOf "SetMeter" [a, b]) = some (.setMeter (BitVec.ofNat 8 m) (BitVec.ofNat 8 n)) ∧
        assembleLine c (lineOf "SetDigit" [a, b]) = some (.setDigit (BitVec.ofNat 8 m) (BitVec.ofNat 8 n)) ∧
        assembleLine c (lineOf "SetLCDC4" [a, b, q]) =
          some (.setLCDC4 (BitVec.ofNat 8 m) (BitVec.ofNat 8 n) text)) ∧
      assembleLine c (lineOf "SendOff" [a]) = some (.sendOff (BitVec.ofNat 8 m)) ∧
      assembleLine c (lineOf "SetTimeDisplay" [q]) = some (.setTimeDisplay text) ∧
      assembleLine c (lineOf "SetLCD" [a, q]) = some (.setLCD (BitVec.ofNat 8 m) text) ∧
      assembleLine c (lineOf "SetLCDXT" [a, q]) = some (.setLCDXT (BitVec.ofNat 8 m) text)) ∧
    assembleLine c (lineOf "HeaderFor" ["STD".toList]) = some (.headerFor 0) ∧
    assembleLine c (lineOf "HeaderFor" ["XT".toList]) = some (.headerFor 1) ∧
    assembleLine c (lineOf "HeaderFor" ["C4".toList]) = some (.headerFor 2) ∧
    assembleLine c (lineOf "Reset" []) = some .reset ∧
    (∀ (name : String) (k : Nat) (ws : List (List Char)), (name, k) ∈ operandCounts → (∀ w ∈ ws, OneWord w) →
      ws.length ≠ k → assembleLine c (lineOf name ws) = none) ∧
    (∀ (line : List Char) (f : Frame), assembleFrame c line = some f →
      ∃ i, assembleLine c line = some i ∧ i.wf = true ∧ decode f = .ok i)

/-! ### Channel-voice encoders (42_channel_voice) -/

/-- 42_channel_voice R111: SetLED, its encoding, its result, its two errors in order, and its example. The example's
wire bytes rest on D29 (log 14, PRESUMED). -/
def Obligations.SetLEDLightsOneSwitch : Prop :=
  ∀ (s : State) (sw state : Byte),
    decode [0x01, sw, state] = .ok (.setLED sw state) ∧
    (sw.toNat < s.cfg.lenIDs → (state = s.cfg.stateOn ∨ state = s.cfg.stateOff) →
      AnswersWith (.setLED sw state) s (.messages [.noteOn 0 sw state])) ∧
    (s.cfg.lenIDs ≤ sw.toNat → AnswersWith (.setLED sw state) s (.error .switch)) ∧
    (sw.toNat < s.cfg.lenIDs → state ≠ s.cfg.stateOn → state ≠ s.cfg.stateOff →
      AnswersWith (.setLED sw state) s (.error .state)) ∧
    serialize (.noteOn 0 0x10 0x7F) = some [0x90, 0x10, 0x7F]

/-- 42_channel_voice R112: SendOff sends Note-Off with velocity 0, for switches only. The rule is the spec's own
decision (D7). The example's wire bytes rest on D29 (log 14, PRESUMED). -/
def Obligations.SendOffSendsNoteOffWithVelocityZero : Prop :=
  ∀ (s : State) (sw : Byte),
    decode [0x02, sw] = .ok (.sendOff sw) ∧
    (sw.toNat < s.cfg.lenIDs → AnswersWith (.sendOff sw) s (.messages [.noteOff 0 sw 0x00])) ∧
    (s.cfg.lenIDs ≤ sw.toNat → AnswersWith (.sendOff sw) s (.error .switch)) ∧
    serialize (.noteOff 0 0x10 0x00) = some [0x80, 0x10, 0x00]

/-- 42_channel_voice R113: SendOffVelocity, for every velocity; with velocity 0 it is SendOff; above 0x7F its record
has no reference serialization. The rule rests on the spec's own decisions (D5, D7). The example's wire bytes rest on
D29 (log 14, PRESUMED). -/
def Obligations.SendOffVelocitySendsNoteOff : Prop :=
  ∀ (s : State) (sw vel : Byte),
    decode [0x03, sw, vel] = .ok (.sendOffVelocity sw vel) ∧
    (sw.toNat < s.cfg.lenIDs → AnswersWith (.sendOffVelocity sw vel) s (.messages [.noteOff 0 sw vel])) ∧
    (s.cfg.lenIDs ≤ sw.toNat → AnswersWith (.sendOffVelocity sw vel) s (.error .switch)) ∧
    exec (.sendOffVelocity sw 0x00) s = exec (.sendOff sw) s ∧
    (0x7F < vel.toNat → serialize (.noteOff 0 sw vel) = none) ∧
    serialize (.noteOff 0 0x10 0x01) = some [0x80, 0x10, 0x01]

/-- 42_channel_voice R114: SetFaderPos, with the little-endian position, the exact bias, and the bus equal to the
Channel. The example's wire bytes rest on D28 and D29 (log 14, PRESUMED). -/
def Obligations.SetFaderPosBendsByPositionMinusBias : Prop :=
  ∀ (s : State) (ch lo hi : Byte) (pos : Word16),
    (pos.toNat = lo.toNat + 256 * hi.toNat → decode [0x04, ch, lo, hi] = .ok (.setFaderPos ch pos)) ∧
    (ch.toNat ≤ 8 → pos.toNat ≤ 16382 →
      ∃ bus : Bus, bus.toNat = ch.toNat ∧ -8191 ≤ (pos.toNat : Int) - 8191 ∧ (pos.toNat : Int) - 8191 ≤ 8191 ∧
        AnswersWith (.setFaderPos ch pos) s (.messages [.pitchBend bus ((pos.toNat : Int) - 8191)])) ∧
    (9 ≤ ch.toNat → AnswersWith (.setFaderPos ch pos) s (.error .channel)) ∧
    (ch.toNat ≤ 8 → 16383 ≤ pos.toNat → AnswersWith (.setFaderPos ch pos) s (.error .position)) ∧
    serialize (.pitchBend 0 8191) = some [0xE0, 0x7F, 0x7F]

/-- 42_channel_voice R115: over the commands' results, position to bend is a symmetric bijection of 0..16382 onto
−8191..8191. -/
def Obligations.FaderBendIsASymmetricBijection : Prop :=
  ∀ (s : State) (bend : Int), -8191 ≤ bend → bend ≤ 8191 →
    ∃ pos : Word16, pos.toNat ≤ 16382 ∧
      AnswersWith (.setFaderPos 0 pos) s (.messages [.pitchBend 0 bend]) ∧
      AnswersWith (.setFaderPos 0 (16382 - pos)) s (.messages [.pitchBend 0 (-bend)]) ∧
      ∀ pos' : Word16, pos'.toNat ≤ 16382 →
        AnswersWith (.setFaderPos 0 pos') s (.messages [.pitchBend 0 bend]) → pos' = pos

/-- 42_channel_voice R118: SetVPot sums mode and LED exactly; the sum never wraps; Master is accepted. The example's
wire bytes rest on D29 (log 14, PRESUMED). -/
def Obligations.SetVPotSumsModeAndLED : Prop :=
  ∀ (s : State) (ch mode led : Byte),
    decode [0x05, ch, mode, led] = .ok (.setVPot ch mode led) ∧
    (ch.toNat ≤ 8 → mode.toNat + led.toNat ≤ 0xFF →
      ∃ ctrl val : Byte, ctrl.toNat = 0x30 + ch.toNat ∧ val.toNat = mode.toNat + led.toNat ∧
        AnswersWith (.setVPot ch mode led) s (.messages [.cc 0 ctrl val]) ∧
        (0x80 ≤ mode.toNat + led.toNat → serialize (.cc 0 ctrl val) = none)) ∧
    (9 ≤ ch.toNat → AnswersWith (.setVPot ch mode led) s (.error .channel)) ∧
    (ch.toNat ≤ 8 → 0xFF < mode.toNat + led.toNat → AnswersWith (.setVPot ch mode led) s (.error .vpotSum)) ∧
    serialize (.cc 0 0x30 0x70) = some [0xB0, 0x30, 0x70]

/-- 42_channel_voice R121 and R122: SetMeter puts the Channel into the high nibble and the level into the low one. The
rule is the spec's own decision (D8). The example's wire bytes rest on D29 (log 14, PRESUMED). -/
def Obligations.SetMeterPacksChannelAndLevel : Prop :=
  ∀ (s : State) (ch level : Byte),
    decode [0x06, ch, level] = .ok (.setMeter ch level) ∧
    (ch.toNat ≤ 8 → level.toNat < 16 →
      ∃ val : Byte, val.toNat = ch.toNat * 2 ^ 4 + level.toNat ∧ val = (ch <<< 4) ||| level ∧
        val.toNat / 16 = ch.toNat ∧ val.toNat % 16 = level.toNat ∧
        AnswersWith (.setMeter ch level) s (.messages [.chanPressure 0 val]) ∧
        (ch.toNat = 8 → serialize (.chanPressure 0 val) = none)) ∧
    (9 ≤ ch.toNat → AnswersWith (.setMeter ch level) s (.error .channel)) ∧
    (ch.toNat ≤ 8 → 16 ≤ level.toNat → AnswersWith (.setMeter ch level) s (.error .level)) ∧
    serialize (.chanPressure 0 0x2E) = some [0xD0, 0x2E]

/-- 42_channel_voice R124 with 30_encoding R80: SetDigit normalizes once, in the two shadow ranges only. The
configured number of digits is at most 64, so the controller does not leave 0x40..0x7F. The example's wire bytes rest
on D29 (log 14, PRESUMED). -/
def Obligations.SetDigitNormalizesOnce : Prop :=
  ∀ (s : State) (digit char : Byte), s.cfg.wf = true →
    decode [0x07, digit, char] = .ok (.setDigit digit char) ∧
    (digit.toNat < s.cfg.lenDigits →
      ∃ ctrl val : Byte, ctrl.toNat = 0x40 + digit.toNat ∧
        (((0x40 ≤ char.toNat ∧ char.toNat ≤ 0x60) ∨ (0x80 ≤ char.toNat ∧ char.toNat ≤ 0xA0)) →
          val.toNat = char.toNat - 0x40) ∧
        (¬((0x40 ≤ char.toNat ∧ char.toNat ≤ 0x60) ∨ (0x80 ≤ char.toNat ∧ char.toNat ≤ 0xA0)) → val = char) ∧
        AnswersWith (.setDigit digit char) s (.messages [.cc 15 ctrl val]) ∧
        (0x7F < val.toNat → serialize (.cc 15 ctrl val) = none)) ∧
    (s.cfg.lenDigits ≤ digit.toNat → AnswersWith (.setDigit digit char) s (.error .digit)) ∧
    serialize (.cc 15 0x40 0x01) = some [0xBF, 0x40, 0x01]

/-- 42_channel_voice R125: `v` and `v − 0x40` send the same byte in the first shadow range; in the second they send
`v − 0x40` and `v − 0x80`, which differ. -/
def Obligations.DigitShadowRangesDiffer : Prop :=
  ∀ (s : State) (digit v : Byte), digit.toNat < s.cfg.lenDigits →
    (0x40 ≤ v.toNat → v.toNat ≤ 0x60 → exec (.setDigit digit v) s = exec (.setDigit digit (v - 0x40)) s) ∧
    (0x80 ≤ v.toNat → v.toNat ≤ 0xA0 → ∃ ctrl : Byte,
      AnswersWith (.setDigit digit v) s (.messages [.cc 15 ctrl (v - 0x40)]) ∧
      AnswersWith (.setDigit digit (v - 0x40)) s (.messages [.cc 15 ctrl (v - 0x80)]) ∧ v - 0x40 ≠ v - 0x80)

/-- 42_channel_voice R127 and R128: SetTimeDisplay returns one message a character of the first ten, message `k` at
controller `0x40 + k` with the `k`-th character from the end, upper-cased and then normalized; and its example "ABC".
The rule is the spec's own decision (D10). Upper (30_encoding R81) takes 0x20 from 0x61..0x7A and leaves every other
byte; NormChar is R80's. -/
def Obligations.SetTimeDisplayWritesRightToLeft : Prop :=
  ∀ (s : State) (text : Text),
    (text.length ≤ 255 → decode (0x08 :: BitVec.ofNat 8 text.length :: text) = .ok (.setTimeDisplay text)) ∧
    ∃ ms, AnswersWith (.setTimeDisplay text) s (.messages ms) ∧ ms.length = min 10 text.length ∧
      (∀ (k : Nat) (b : Byte), k < min 10 text.length → text[min 10 text.length - 1 - k]? = some b →
        ∃ ctrl : Byte, ctrl.toNat = 0x40 + k ∧ ms[k]? = some (.cc 15 ctrl (normChar (upper b)))) ∧
      AnswersWith (.setTimeDisplay [0x41, 0x42, 0x43]) s
        (.messages [.cc 15 0x40 0x03, .cc 15 0x41 0x02, .cc 15 0x42 0x01]) ∧
      (∀ b : Byte,
        (0x61 ≤ b.toNat → b.toNat ≤ 0x7A → (upper b).toNat = b.toNat - 0x20) ∧
        ((b.toNat ≤ 0x60 ∨ 0x7B ≤ b.toNat) → upper b = b) ∧
        (((0x40 ≤ b.toNat ∧ b.toNat ≤ 0x60) ∨ (0x80 ≤ b.toNat ∧ b.toNat ≤ 0xA0)) →
          (normChar b).toNat = b.toNat - 0x40) ∧
        (¬((0x40 ≤ b.toNat ∧ b.toNat ≤ 0x60) ∨ (0x80 ≤ b.toNat ∧ b.toNat ≤ 0xA0)) → normChar b = b)) ∧
      upper 0x60 = 0x60 ∧ upper 0x61 = 0x41 ∧ upper 0x7A = 0x5A ∧ upper 0x7B = 0x7B

/-! ### SysEx LCD encoders and the header registry (43_sysex_lcd, 41_header_registry) -/

/-- 43_sysex_lcd R142: SetLCD, its payload, its checks in order, and its example. -/
def Obligations.SetLCDWritesTheStandardDisplay : Prop :=
  ∀ (s : State) (off : Byte) (text : Text),
    (text.length ≤ 255 → decode (0x09 :: off :: BitVec.ofNat 8 text.length :: text) = .ok (.setLCD off text)) ∧
    (off.toNat < s.cfg.lcdSizeStd → off.toNat + text.length ≤ s.cfg.lcdSizeStd → (∀ b ∈ text, b.toNat ≤ 0x7F) →
      AnswersWith (.setLCD off text) s
        (.messages [.sysEx (s.cfg.headerStd.bytes ++ [s.cfg.lcdFrameByte, off] ++ text)])) ∧
    ((s.cfg.lcdSizeStd ≤ off.toNat ∨ s.cfg.lcdSizeStd < off.toNat + text.length) →
      AnswersWith (.setLCD off text) s (.error .lcdRange)) ∧
    (off.toNat < s.cfg.lcdSizeStd → off.toNat + text.length ≤ s.cfg.lcdSizeStd → (∃ b ∈ text, 0x7F < b.toNat) →
      AnswersWith (.setLCD off text) s (.error .textChar)) ∧
    serialize (.sysEx [0x00, 0x00, 0x66, 0x14, 0x12, 0x00, 0x48, 0x49]) =
      some [0xF0, 0x00, 0x00, 0x66, 0x14, 0x12, 0x00, 0x48, 0x49, 0xF7]

/-- 43_sysex_lcd R143: SetLCDXT, its payload, its checks in order, and its example. -/
def Obligations.SetLCDXTWritesTheExtenderDisplay : Prop :=
  ∀ (s : State) (off : Byte) (text : Text),
    (text.length ≤ 255 → decode (0x0A :: off :: BitVec.ofNat 8 text.length :: text) = .ok (.setLCDXT off text)) ∧
    (off.toNat < s.cfg.lcdSizeXT → off.toNat + text.length ≤ s.cfg.lcdSizeXT → (∀ b ∈ text, b.toNat ≤ 0x7F) →
      AnswersWith (.setLCDXT off text) s
        (.messages [.sysEx (s.cfg.headerXT.bytes ++ [s.cfg.lcdFrameByte, off] ++ text)])) ∧
    ((s.cfg.lcdSizeXT ≤ off.toNat ∨ s.cfg.lcdSizeXT < off.toNat + text.length) →
      AnswersWith (.setLCDXT off text) s (.error .lcdRange)) ∧
    (off.toNat < s.cfg.lcdSizeXT → off.toNat + text.length ≤ s.cfg.lcdSizeXT → (∃ b ∈ text, 0x7F < b.toNat) →
      AnswersWith (.setLCDXT off text) s (.error .textChar)) ∧
    serialize (.sysEx [0x00, 0x00, 0x66, 0x15, 0x12, 0x00, 0x48, 0x49]) =
      some [0xF0, 0x00, 0x00, 0x66, 0x15, 0x12, 0x00, 0x48, 0x49, 0xF7]

/-- 43_sysex_lcd R144: SetLCDC4, its payload with the row selector, and its checks: offset, row, length, characters.
The rule is the spec's own decision (D11). -/
def Obligations.SetLCDC4WritesOneRow : Prop :=
  ∀ (s : State) (off row : Byte) (text : Text), s.cfg.wf = true →
    (text.length ≤ 255 →
      decode (0x0B :: off :: row :: BitVec.ofNat 8 text.length :: text) = .ok (.setLCDC4 off row text)) ∧
    (off.toNat < s.cfg.lcdSizeC4 → row.toNat < s.cfg.lenC4Rows → off.toNat + text.length ≤ s.cfg.lcdSizeC4 →
      (∀ b ∈ text, b.toNat ≤ 0x7F) →
      ∃ selector : Byte, selector.toNat = 0x30 + row.toNat ∧ selector.toNat ≤ 0x7F ∧
        AnswersWith (.setLCDC4 off row text) s
          (.messages [.sysEx (s.cfg.headerC4.bytes ++ [selector, off] ++ text)])) ∧
    (s.cfg.lcdSizeC4 ≤ off.toNat → AnswersWith (.setLCDC4 off row text) s (.error .lcdRange)) ∧
    (off.toNat < s.cfg.lcdSizeC4 → s.cfg.lenC4Rows ≤ row.toNat →
      AnswersWith (.setLCDC4 off row text) s (.error .row)) ∧
    (off.toNat < s.cfg.lcdSizeC4 → row.toNat < s.cfg.lenC4Rows → s.cfg.lcdSizeC4 < off.toNat + text.length →
      AnswersWith (.setLCDC4 off row text) s (.error .lcdRange)) ∧
    (off.toNat < s.cfg.lcdSizeC4 → row.toNat < s.cfg.lenC4Rows → off.toNat + text.length ≤ s.cfg.lcdSizeC4 →
      (∃ b ∈ text, 0x7F < b.toNat) → AnswersWith (.setLCDC4 off row text) s (.error .textChar)) ∧
    serialize (.sysEx [0x00, 0x00, 0x66, 0x17, 0x30, 0x00, 0x48, 0x49]) =
      some [0xF0, 0x00, 0x00, 0x66, 0x17, 0x30, 0x00, 0x48, 0x49, 0xF7]

/-- 43_sysex_lcd R145: for every LCD command that is answered with messages, the payload is header, frame byte, offset
and text, and the wire message is 8 bytes longer than the text. -/
def Obligations.LCDMessagesAreHeaderFrameOffsetText : Prop :=
  ∀ (s : State) (i : Instr) (v : Variant) (text : Text) (ms : List Message),
    ((∃ off, i = .setLCD off text ∧ v = .std) ∨ (∃ off, i = .setLCDXT off text ∧ v = .xt) ∨
      (∃ off row, i = .setLCDC4 off row text ∧ v = .c4)) →
    AnswersWith i s (.messages ms) →
    ∃ payload, ms = [.sysEx payload] ∧ payload.length = 4 + 1 + 1 + text.length ∧
      payload.take 4 = (s.cfg.header v).bytes ∧ payload.drop (payload.length - text.length) = text ∧
      ∃ bytes, serialize (.sysEx payload) = some bytes ∧ bytes.length = text.length + 8

/-- 41_header_registry R100: HeaderFor returns the configured header of the variant, and only 0, 1, 2 are variants.
The frame must be two bytes long. By default STD is 00 00 66 14, a default from the spec's general knowledge that
State.reset takes (log 2, PRESUMED). -/
def Obligations.HeaderForReturnsTheConfiguredHeader : Prop :=
  ∀ (s : State) (v : Byte),
    decode [0x0C, v] = .ok (.headerFor v) ∧
    (∀ operands : List Byte, operands.length ≠ 1 → decode (0x0C :: operands) = .error .badLength) ∧
    AnswersWith (.headerFor 0) s (.bytes s.cfg.headerStd.bytes) ∧
    AnswersWith (.headerFor 1) s (.bytes s.cfg.headerXT.bytes) ∧
    AnswersWith (.headerFor 2) s (.bytes s.cfg.headerC4.bytes) ∧
    (3 ≤ v.toNat → AnswersWith (.headerFor v) s (.error .variant)) ∧
    Config.default.headerStd.bytes = [0x00, 0x00, 0x66, 0x14]

/-- 41_header_registry R102: the headers being distinct, the variant of an LCD message is known from its first four
payload bytes. The rule is the spec's own decision (D13). -/
def Obligations.HeaderIdentifiesTheVariant : Prop :=
  ∀ (c : Config) (v w : Variant) (fv fw ov ow : Byte) (tv tw : Text), c.wf = true →
    (lcdPayload c v fv ov tv).take 4 = (lcdPayload c w fw ow tw).take 4 → v = w

/-! ### The encoder as a whole -/

/-- 44_reset_sequencer R183: in every phase, every command but Reset completes with one result, which depends on its
operands and the configuration alone; the sequencer and the transport port are left as they were. The rule is the
spec's own decision (D22). -/
def Obligations.EncoderCommandsOnlyAnswer : Prop :=
  ∀ (i : Instr) (s : State), i ≠ .reset →
    ∃ r, AnswersWith i s r ∧ ∀ s' : State, s'.cfg = s.cfg → AnswersWith i s' r

/-- 10_state R29: every encoder or header command is answered with exactly one result: one message (0 to 10 for
SetTimeDisplay), the four bytes of HeaderFor, or a domain error. The rule is the spec's own decision (D31). -/
def Obligations.ResultsHaveTheirForm : Prop :=
  ∀ (i : Instr) (s : State), i ≠ .reset → ∃ r, AnswersWith i s r ∧
    ((∃ e, r = .error e) ∨
     (∃ v bs, i = .headerFor v ∧ r = .bytes bs ∧ bs.length = 4) ∨
     (∃ text ms, i = .setTimeDisplay text ∧ r = .messages ms ∧ ms.length ≤ 10) ∨
     (∃ m, (∀ v, i ≠ .headerFor v) ∧ (∀ text, i ≠ .setTimeDisplay text) ∧ r = .messages [m]))

/-- 60_exceptions R203: a step that answers a domain error builds no message and leaves everything else as it was, in
every phase. -/
def Obligations.DomainErrorsChangeNothing : Prop :=
  ∀ (s t : State) (e : DomainError), step s = .next t → t.results = s.results ++ [.error e] →
    ∃ f rest, s.inputs = .frame f :: rest ∧
      t = { s with inputs := rest, results := s.results ++ [.error e] }

/-! ### Configuration and power-on -/

/-- 00_scope R8: the constraints, spelt out; the family order is a permutation of the six families. The last one is the
model's own, for the clock's resolution (log 7). -/
def Obligations.ConfigurationConstraints : Prop :=
  ∀ c : Config, c.wf = true ↔
    (1 ≤ c.lenIDs ∧ c.lenIDs ≤ 128) ∧ (1 ≤ c.lenDigits ∧ c.lenDigits ≤ 64) ∧
    (1 ≤ c.lenLines ∧ 1 ≤ c.lineWidth ∧ c.lenLines * c.lineWidth ≤ c.lcdSizeStd) ∧
    (∀ v, ∀ b ∈ (c.header v).bytes, b.toNat ≤ 0x7F) ∧ (∀ v w, c.header v = c.header w → v = w) ∧
    c.lcdFrameByte.toNat ≤ 0x7F ∧ (∀ v, 1 ≤ c.lcdSize v ∧ c.lcdSize v ≤ 128) ∧
    (1 ≤ c.lenC4Rows ∧ c.lenC4Rows ≤ 0x50) ∧
    (c.stateOn.toNat ≤ 0x7F ∧ c.stateOff.toNat ≤ 0x7F ∧ c.stateOn ≠ c.stateOff) ∧
    (c.meterLessThan60.toNat < 16 ∧ c.meterClipping.toNat < 16 ∧ c.meterClipOff.toNat < 16 ∧
      c.meterClipOff ≠ c.meterClipping) ∧
    (c.vpotMode3.toNat + c.vpotLEDCenter.toNat ≤ 0xFF ∧ c.vpotMode0.toNat + c.vpotLEDOff.toNat ≤ 0xFF) ∧
    c.familyOrder.Perm [.led, .fader, .vpot, .meter, .digit, .lcd] ∧ 1 ≤ c.clockTicksPerMs

/-- 00_scope R9: an ill-formed configuration is refused at configuration time; a well-formed one gives the power-on state.
That state has the values of 10_state R31 (the spec's own decision D24). R9 speaks of configuration time only: that step
refuses every state with an ill-formed configuration is the model's deduction (log 18, DEDUCED). -/
def Obligations.IllFormedConfigurationsAreRefused : Prop :=
  ∀ c : Config,
    (c.wf = true → configure c = .next (State.powerOn c)) ∧
    ((State.powerOn c).cfg = c ∧ (State.powerOn c).rsPhase = .idle ∧ (State.powerOn c).rsIndex = 0 ∧
      (State.powerOn c).rsPending = false ∧ (State.powerOn c).rsResult = .none) ∧
    (c.wf = false → configure c = .refused .illFormedConfig ∧
      ∀ s : State, s.cfg = c → step s = .refused .illFormedConfig)

/-- 10_state R25: no step changes the configuration. The rule is the spec's own decision (D1). -/
def Obligations.ConfigurationNeverChanges : Prop :=
  ∀ s t : State, step s = .next t → t.cfg = s.cfg

/-- 70_reset R230 and R231: power-on reset, whenever it comes, puts the registers at their power-on values, leaves
`rs_settle_start` at the unspecified value `x`, reports nothing, and abandons an outstanding send. A later answer to
an abandoned send, in whatever state it comes and whatever it says, is ignored: it only ends the wait for it, and no
other step forgets an abandoned send. The rule is the spec's own decision (D24). That the clock and the held frames
stay, and that a late answer is told apart by its own input and a count, is the model's choice (log 4, 9, 12). -/
def Obligations.PowerOnResetAbandonsTheRun : Prop :=
  (∀ (s : State) (x : Nat) (rest : List Input), s.cfg.wf = true → s.inputs = .powerOn x :: rest →
    ∃ t, step s = .next t ∧ t.rsPhase = .idle ∧ t.rsIndex = 0 ∧ t.rsPending = false ∧ t.rsResult = .none ∧
      t.rsSettleStart = x ∧ t.cfg = s.cfg ∧ t.clock = s.clock ∧ t.held = s.held ∧ t.results = s.results ∧
      t.transport = s.transport ∧ t.statuses = s.statuses ∧ t.inputs = rest ∧
      (s.rsPending = true → t.abandoned = s.abandoned + 1) ∧ (s.rsPending = false → t.abandoned = s.abandoned)) ∧
  (∀ (s : State) (a : Answer) (rest : List Input), s.cfg.wf = true → 0 < s.abandoned →
    s.inputs = .lateAnswer a :: rest →
    step s = .next { s with inputs := rest, abandoned := s.abandoned - 1 }) ∧
  (∀ (s t : State), step s = .next t → t.abandoned ≠ s.abandoned →
    (∃ x rest, s.inputs = .powerOn x :: rest) ∨ ∃ a rest, s.inputs = .lateAnswer a :: rest)

/-! ### The reset sequencer's transitions (44_reset_sequencer part 3) -/

/-- 44_reset_sequencer R172: in IDLE a Reset command starts with batch A, message 0, and the old rs_result stays; a
held Reset frame is accepted the same way at the sequencer's turn. With no held frame the turn changes nothing (R179),
and no step leaves IDLE but one that accepts a Reset frame, offered or held; from IDLE, with no send outstanding, no step
offers a message or reports a status (R180; 70_reset R232). The rules rest on the spec's own decisions (D22, D24). That
held frames are counted, and that the sequencer's turn accepts one of them (10_state R26; 60_exceptions R212), is the
model's reading (log 9, DEDUCED); that an empty schedule is the sequencer's turn is its choice (log 6, DESIGN CHOICE). -/
def Obligations.ResetStartsInIdle : Prop :=
  ∀ s : State, s.rsPhase = .idle →
    exec .reset s = .next { s with rsPhase := .phaseA, rsIndex := 0, rsPending := false } ∧
    (∀ rest, s.cfg.wf = true → (s.inputs = .sequencer :: rest ∨ (s.inputs = [] ∧ rest = [])) →
      (0 < s.held → step s = .next { s with
        inputs := rest, held := s.held - 1, rsPhase := .phaseA, rsIndex := 0, rsPending := false }) ∧
      (s.held = 0 → step s = .next { s with inputs := rest })) ∧
    (∀ t : State, step s = .next t →
      (t.rsPhase ≠ .idle → t.rsPhase = .phaseA ∧ acceptsReset s = true) ∧
      (s.rsPending = false → sequencerActions t.transport = sequencerActions s.transport ∧ t.statuses = s.statuses))

/-- 60_exceptions R212: a Reset frame outside IDLE is held, without an error and without any other effect; when the
running Reset ends, with OK or with ERR, it is still held and the sequencer's next turn accepts it. The rule is the
spec's own decision (D22). The count of held frames is the model's reading (log 9, DEDUCED); that they stay held when
a power-on reset ends the command is the model's own choice (log 9, DESIGN CHOICE). -/
def Obligations.ResetIsHeldWhileBusy : Prop :=
  ∀ (s : State) (rest : List Input), s.cfg.wf = true → s.rsPhase ≠ .idle →
    (s.inputs = .frame [0x0D] :: rest → step s = .next { s with inputs := rest, held := s.held + 1 }) ∧
    (∀ t : State, step s = .next t → t.rsPhase = .idle → s.held ≤ t.held ∧
      (0 < t.held → sequencerNext t = true → ∃ u, step t = .next u ∧ u.rsPhase = .phaseA ∧ u.held = t.held - 1))

/-- 44_reset_sequencer R173: the next message of the batch is offered. -/
def Obligations.OfferTransition : Prop :=
  ∀ (s : State) (rest : List Input) (m : Message), s.cfg.wf = true → s.inputs = .sequencer :: rest →
    s.rsPending = false →
    ((s.rsPhase = .phaseA ∧ (batchA s.cfg)[s.rsIndex]? = some m) ∨
      (s.rsPhase = .phaseB ∧ (batchB s.cfg)[s.rsIndex]? = some m)) →
    step s = .next { s with
      inputs := rest, rsPending := true, transport := s.transport ++ [⟨s.clock, .offered m⟩] }

/-- 44_reset_sequencer R174: a failed send ends the command; rs_result and the status carry the transport's value. -/
def Obligations.FailureTransition : Prop :=
  ∀ (s : State) (e : TransportError) (rest : List Input), s.cfg.wf = true → s.inputs = .answer (.err e) :: rest →
    s.rsPending = true →
    step s = .next { s with
      inputs := rest, rsPending := false, rsResult := .err e, rsPhase := .idle,
      statuses := s.statuses ++ [.transportErr e], transport := s.transport ++ [⟨s.clock, .answered (.err e)⟩] }

/-- 44_reset_sequencer R175: an acknowledged send advances `rs_index` by exactly 1. -/
def Obligations.AcknowledgeTransition : Prop :=
  ∀ (s : State) (rest : List Input), s.cfg.wf = true → s.inputs = .answer .ok :: rest → s.rsPending = true →
    step s = .next { s with
      inputs := rest, rsPending := false, rsIndex := s.rsIndex + 1,
      transport := s.transport ++ [⟨s.clock, .answered .ok⟩] }

/-- 44_reset_sequencer R176: at the end of batch A the settling begins at the clock's reading. -/
def Obligations.EndOfPhaseATransition : Prop :=
  ∀ (s : State) (rest : List Input), s.cfg.wf = true → s.inputs = .sequencer :: rest →
    s.rsPhase = .phaseA → s.rsPending = false → s.rsIndex = (batchA s.cfg).length →
    step s = .next { s with inputs := rest, rsPhase := .settle, rsSettleStart := s.clock }

/-- 44_reset_sequencer R177: phase B begins only when at least 100 ms have passed since `rs_settle_start`; before that
the sequencer's turn changes nothing. A millisecond is `clockTicksPerMs` readings of the clock port (log 7). The rule
is the spec's own decision (D21). -/
def Obligations.SettlingTransition : Prop :=
  ∀ (s : State) (rest : List Input), s.cfg.wf = true → s.inputs = .sequencer :: rest → s.rsPhase = .settle →
    (s.rsSettleStart + 100 * s.cfg.clockTicksPerMs ≤ s.clock →
      step s = .next { s with inputs := rest, rsPhase := .phaseB, rsIndex := 0 }) ∧
    (s.clock < s.rsSettleStart + 100 * s.cfg.clockTicksPerMs → step s = .next { s with inputs := rest })

/-- 44_reset_sequencer R178: at the end of batch B the command ends with OK. -/
def Obligations.EndOfPhaseBTransition : Prop :=
  ∀ (s : State) (rest : List Input), s.cfg.wf = true → s.inputs = .sequencer :: rest →
    s.rsPhase = .phaseB → s.rsPending = false → s.rsIndex = (batchB s.cfg).length →
    step s = .next { s with
      inputs := rest, rsPhase := .idle, rsResult := .ok, statuses := s.statuses ++ [.ok] }

/-- 10_state R23: the only steps that change rs_result: the failed send, the end of batch B, and power-on reset; and
the first two report it. The rule is the spec's own decision (D32). -/
def Obligations.OnlyTheSequencerWritesResult : Prop :=
  ∀ s t : State, step s = .next t → t.rsResult ≠ s.rsResult →
    (∃ e rest, s.inputs = .answer (.err e) :: rest ∧ s.rsPending = true ∧ t.rsResult = .err e ∧
      t.statuses = s.statuses ++ [.transportErr e]) ∨
    (s.rsPhase = .phaseB ∧ s.rsPending = false ∧ s.rsIndex = (batchB s.cfg).length ∧ sequencerNext s = true ∧
      t.rsResult = .ok ∧ t.statuses = s.statuses ++ [.ok]) ∨
    (∃ x rest, s.inputs = .powerOn x :: rest ∧ t.rsResult = .none ∧ t.statuses = s.statuses)

/-- 10_state R22: `rs_index` changes only by 1 at an acknowledged send, or to 0 where a Reset frame is accepted and phase A
is entered, where the sequencer's turn ends the settling and enters phase B, or where the block is powered on. -/
def Obligations.IndexAdvancesByOneOrRestarts : Prop :=
  ∀ s t : State, step s = .next t → t.rsIndex ≠ s.rsIndex →
    (∃ rest, s.inputs = .answer .ok :: rest ∧ s.rsPending = true ∧ t.rsIndex = s.rsIndex + 1) ∨
    (t.rsIndex = 0 ∧ ((s.rsPhase = .idle ∧ t.rsPhase = .phaseA ∧ acceptsReset s = true) ∨
      (s.rsPhase = .settle ∧ t.rsPhase = .phaseB ∧ sequencerNext s = true) ∨
      ∃ x rest, s.inputs = .powerOn x :: rest))

/-- 44_reset_sequencer R179 and 70_reset R237: while a send is outstanding, no step but its answer or a power-on reset
moves the sequencer or offers anything; a transport that never answers leaves it waiting. -/
def Obligations.SilentTransportHangsTheSequencer : Prop :=
  ∀ s t : State, s.rsPending = true → s.rsPhase ≠ .idle → s.rsPhase ≠ .settle → noAnswerNext s = true →
    step s = .next t →
    t.rsPhase = s.rsPhase ∧ t.rsIndex = s.rsIndex ∧ t.rsPending = true ∧ t.rsSettleStart = s.rsSettleStart ∧
    t.rsResult = s.rsResult ∧ t.statuses = s.statuses ∧ s.held ≤ t.held ∧
    sequencerActions t.transport = sequencerActions s.transport

/-- 60_exceptions R209: after a transport error the sequencer accepts a new Reset command, which starts again from
batch A, message 0. -/
def Obligations.ResetIsAcceptedAfterATransportError : Prop :=
  ∀ (s t : State) (e : TransportError) (rest : List Input), s.inputs = .answer (.err e) :: rest →
    step s = .next t →
    ∃ u, exec .reset t = .next u ∧ u.rsPhase = .phaseA ∧ u.rsIndex = 0 ∧ u.rsPending = false ∧ u.rsResult = .err e ∧
      ∃ m, (batchA t.cfg)[0]? = some m ∧ sequencerTurn u = offerSend m u

/-! ### The batches (44_reset_sequencer part 2) -/

/-- 44_reset_sequencer R171: the batch lengths. -/
def Obligations.BatchLengths : Prop :=
  ∀ c : Config, c.wf = true →
    (batchA c).length = c.lenIDs + c.lenDigits + c.lenLines + 25 ∧
    (batchB c).length = c.lenIDs + c.lenDigits + c.lenLines + 33 ∧
    (batchB c).length - (batchA c).length = 8

/-- 44_reset_sequencer R182: every batch entry is an encoder command that returns exactly one message. -/
def Obligations.NoDomainErrorDuringAReset : Prop :=
  ∀ (c : Config) (f : Family) (i : Instr), c.wf = true → (i ∈ familyA c f ∨ i ∈ familyB c f) →
    ∃ m, encoderResult c i = some (.messages [m])

/-- 44_reset_sequencer R165 to R170: the records of each family, in increasing index; the faders' wire bytes; the
default glyphs. Wire bytes rest on D28 and D29 (log 14, PRESUMED). -/
def Obligations.FamilyRecords : Prop :=
  ∀ c : Config, c.wf = true →
    batchOf c (familyA c .led) = (List.range c.lenIDs).map (fun s => .noteOn 0 (BitVec.ofNat 8 s) c.stateOn) ∧
    batchOf c (familyB c .led) = (List.range c.lenIDs).map (fun s => .noteOn 0 (BitVec.ofNat 8 s) c.stateOff) ∧
    batchOf c (familyA c .fader) = (List.range 9).map (fun ch => .pitchBend (BitVec.ofNat 4 ch) 8191) ∧
    batchOf c (familyB c .fader) = (List.range 9).map (fun ch => .pitchBend (BitVec.ofNat 4 ch) (-8191)) ∧
    (∀ ch : Bus, serialize (.pitchBend ch 8191) = some [0xE0 ||| ch.zeroExtend 8, 0x7F, 0x7F] ∧
      serialize (.pitchBend ch (-8191)) = some [0xE0 ||| ch.zeroExtend 8, 0x01, 0x00]) ∧
    batchOf c (familyA c .vpot) =
      (List.range 8).map (fun ch => .cc 0 (BitVec.ofNat 8 (0x30 + ch)) (c.vpotMode3 + c.vpotLEDCenter)) ∧
    batchOf c (familyB c .vpot) =
      (List.range 8).map (fun ch => .cc 0 (BitVec.ofNat 8 (0x30 + ch)) (c.vpotMode0 + c.vpotLEDOff)) ∧
    batchOf c (familyA c .meter) =
      (List.range 8).map (fun ch => .chanPressure 0 (BitVec.ofNat 8 (ch * 2 ^ 4 + c.meterClipping.toNat))) ∧
    batchOf c (familyB c .meter) =
      (List.range 8).flatMap (fun ch => [.chanPressure 0 (BitVec.ofNat 8 (ch * 2 ^ 4 + c.meterClipOff.toNat)),
        .chanPressure 0 (BitVec.ofNat 8 (ch * 2 ^ 4 + c.meterLessThan60.toNat))]) ∧
    (∀ m ∈ batchOf c (familyA c .meter) ++ batchOf c (familyB c .meter), serialize m ≠ none) ∧
    batchOf c (familyA c .digit) =
      (List.range c.lenDigits).map (fun d => .cc 15 (BitVec.ofNat 8 (0x40 + d)) (normChar c.digitOnChar)) ∧
    batchOf c (familyB c .digit) =
      (List.range c.lenDigits).map (fun d => .cc 15 (BitVec.ofNat 8 (0x40 + d)) (normChar c.digitOffChar)) ∧
    normChar 0xA0 = 0x60 ∧ normChar 0x20 = 0x20 ∧
    batchOf c (familyA c .lcd) = (List.range c.lenLines).map (fun i => .sysEx (c.headerStd.bytes ++
      [c.lcdFrameByte, BitVec.ofNat 8 (i * c.lineWidth)] ++ List.replicate c.lineWidth 0x20)) ∧
    batchOf c (familyB c .lcd) = batchOf c (familyA c .lcd)

/-- 44_reset_sequencer R161 and 20_memory R52: a batch is one contiguous sub-batch a family, in `FamilyOrder`, the
same in both phases; the default order is the one R161 lists. The rule is the spec's own decision (D16). -/
def Obligations.BatchesGroupTheFamilies : Prop :=
  Config.default.familyOrder = [.led, .fader, .vpot, .meter, .digit, .lcd] ∧
  ∀ c : Config,
    batchA c = (c.familyOrder.map fun f => batchOf c (familyA c f)).flatten ∧
    batchB c = (c.familyOrder.map fun f => batchOf c (familyB c f)).flatten ∧
    (c.wf = true → c.familyOrder.Nodup ∧ ∀ f : Family, f ∈ c.familyOrder)

/-! ### Whole runs -/

/-- The invariant holds after power-on, for every well-formed configuration, the reset state's among them. The
power-on values are those of 10_state R31 (the spec's own decision D24); the reset state has the default configuration
(log 2). -/
def Obligations.InvariantHoldsAtPowerOn : Prop :=
  (∀ c : Config, c.wf = true → Inv (State.powerOn c)) ∧ Inv State.reset ∧
  (∀ c : Config, (State.powerOn c).cfg = c ∧ (State.powerOn c).rsPhase = .idle ∧ (State.powerOn c).rsIndex = 0 ∧
    (State.powerOn c).rsPending = false ∧ (State.powerOn c).rsResult = .none) ∧
  State.reset = State.powerOn Config.default

/-- Every step keeps the invariant: `rs_index` within its batch, at most one send outstanding, every message offered
only after the one before it was acknowledged, in batch order, and batch B only after the settling interval. -/
def Obligations.EveryStepKeepsTheInvariant : Prop :=
  ∀ s t : State, Inv s → step s = .next t → Inv t

/-- 44_reset_sequencer R181, every send succeeds: when a Reset command ends with OK, the transport port saw all of
batch A, each message acknowledged, then at least 100 ms, then all of batch B, each message acknowledged. -/
def Obligations.CompletedResetSentBothBatches : Prop :=
  ∀ s t : State, Inv s → step s = .next t → s.rsPhase = .phaseB → t.rsPhase = .idle → t.rsResult = .ok →
    t.statuses = s.statuses ++ [.ok] ∧
    ∃ (before runA runB : List TransportEvent) (settled : Nat),
      t.transport = before ++ runA ++ runB ∧
      sequencerActions runA = acknowledged (batchA s.cfg) ∧
      sequencerActions runB = acknowledged (batchB s.cfg) ∧
      SequencerUpTo settled runA ∧ SequencerFrom (settled + 100 * s.cfg.clockTicksPerMs) runB

/-- 44_reset_sequencer R181, the first failure is on `BatchA[k]`: the transport port saw `BatchA[0..k]` and nothing of
batch B, with no settling, and the status carries the transport's value. -/
def Obligations.FailureInPhaseAStopsTheReset : Prop :=
  ∀ (s : State) (e : TransportError) (rest : List Input), Inv s → s.rsPhase = .phaseA → s.rsPending = true →
    s.inputs = .answer (.err e) :: rest →
    ∃ t m before run, step s = .next t ∧ t.rsPhase = .idle ∧ t.rsResult = .err e ∧
      t.statuses = s.statuses ++ [.transportErr e] ∧ t.rsSettleStart = s.rsSettleStart ∧
      (batchA s.cfg)[s.rsIndex]? = some m ∧ t.transport = before ++ run ∧
      sequencerActions run = acknowledged ((batchA s.cfg).take s.rsIndex) ++ [.offered m, .answered (.err e)]

/-- 44_reset_sequencer R181 and 60_exceptions R208, the first failure is on `BatchB[k]`: the transport port saw all of
batch A, the settling interval, and `BatchB[0..k]`. -/
def Obligations.FailureInPhaseBStopsThatPhase : Prop :=
  ∀ (s : State) (e : TransportError) (rest : List Input), Inv s → s.rsPhase = .phaseB → s.rsPending = true →
    s.inputs = .answer (.err e) :: rest →
    ∃ t m before runA runB, step s = .next t ∧ t.rsPhase = .idle ∧ t.rsResult = .err e ∧
      t.statuses = s.statuses ++ [.transportErr e] ∧
      (batchB s.cfg)[s.rsIndex]? = some m ∧ t.transport = before ++ runA ++ runB ∧
      sequencerActions runA = acknowledged (batchA s.cfg) ∧
      sequencerActions runB = acknowledged ((batchB s.cfg).take s.rsIndex) ++ [.offered m, .answered (.err e)] ∧
      SequencerUpTo s.rsSettleStart runA ∧
      SequencerFrom (s.rsSettleStart + 100 * s.cfg.clockTicksPerMs) runB

/-- 44_reset_sequencer R160: a Reset command whose sends are all acknowledged and whose clock advances by the settling
interval runs to its end: OK is reported, and the transport port saw exactly batch A and then batch B. -/
def Obligations.ResetRunsToCompletion : Prop :=
  ∀ (s : State) (rest : List Input) (d : Nat), s.cfg.wf = true → s.rsPhase = .idle →
    100 * s.cfg.clockTicksPerMs ≤ d →
    s.inputs = [.frame [0x0D]] ++ acknowledgedSends (batchA s.cfg).length ++ [.sequencer, .clock d, .sequencer] ++
      acknowledgedSends (batchB s.cfg).length ++ [.sequencer] ++ rest →
    Host.Core.run Sys2Proof.core (2 * (batchA s.cfg).length + 2 * (batchB s.cfg).length + 5) s =
      .next { s with
        inputs := rest, rsPhase := .idle, rsIndex := (batchB s.cfg).length, rsPending := false,
        rsSettleStart := s.clock, rsResult := .ok, clock := s.clock + d, statuses := s.statuses ++ [.ok],
        transport := s.transport ++ eventsAt s.clock (acknowledged (batchA s.cfg)) ++
          eventsAt (s.clock + d) (acknowledged (batchB s.cfg)) }

/-- 60_exceptions R211: the order of an encoder command and a Reset frame (accepted or held), a transport response,
the sequencer's turn or any other input that is no second encoder frame changes no result: taking the input and then
the command gives the state that taking the command and then the input gives. Two encoder frames leave their two
results in the order in which they came. The rule is the spec's own decision (D22). -/
def Obligations.EncoderCommandsCommuteWithInputs : Prop :=
  ∀ (i : Instr) (x : Input) (s t : State), i ≠ .reset → (∀ f, x = .frame f → decode f = .ok .reset) →
    takeInput x s = .next t →
    ∃ u v, exec i s = .next u ∧ exec i t = .next v ∧ takeInput x u = .next v

/-- 20_memory R54: another sender's message goes out between the sequencer's, at any point of the schedule, and
changes nothing of the sequencer. The rule is the spec's own decision (D22). -/
def Obligations.OtherSendersInterleave : Prop :=
  ∀ (s : State) (m : Message) (rest : List Input), s.cfg.wf = true → s.inputs = .callerSend m :: rest →
    ∃ t, step s = .next t ∧
      t = { s with inputs := rest, transport := s.transport ++ [⟨s.clock, .callerSent m⟩] } ∧
      sequencerActions t.transport = sequencerActions s.transport

/-- 10_state R28: the clock port's reading never decreases, and only the input of the clock moves it; that input changes
nothing else (60_exceptions R210). The rules are the spec's own decisions (D21, D1). -/
def Obligations.ClockNeverGoesBack : Prop :=
  (∀ s t : State, step s = .next t →
    s.clock ≤ t.clock ∧ (t.clock ≠ s.clock → ∃ d rest, s.inputs = .clock d :: rest ∧ t.clock = s.clock + d)) ∧
  (∀ (s : State) (d : Nat) (rest : List Input), s.cfg.wf = true → s.inputs = .clock d :: rest →
    step s = .next { s with inputs := rest, clock := s.clock + d })

/-- A machine with a well-formed configuration answers a next state at every step, whatever the commands are: it stops
only at an answer that no send awaits (60_exceptions R200; the stop is the model's, log 11). -/
def Obligations.OnlyUnsolicitedAnswersStop : Prop :=
  ∀ s : State, s.cfg.wf = true →
    (answerExpected s = true → ∃ t, step s = .next t) ∧
    (answerExpected s = false → step s = .fault .unsolicitedAnswer)

/-! ### Wire bytes (30_encoding part 4) -/

/-- 30_encoding R90 and R93: the channel-voice records' bytes where every data field is at most 0x7F, and no bytes for
any other. The status nibbles are the spec's own general-knowledge decision D29 (log 14). The mark of log 14 is
PRESUMED. -/
def Obligations.ChannelVoiceSerialization : Prop :=
  ∀ (ch : Bus) (a b : Byte),
    (a.toNat ≤ 0x7F → b.toNat ≤ 0x7F →
      serialize (.noteOff ch a b) = some [0x80 ||| ch.zeroExtend 8, a, b] ∧
      serialize (.noteOn ch a b) = some [0x90 ||| ch.zeroExtend 8, a, b] ∧
      serialize (.cc ch a b) = some [0xB0 ||| ch.zeroExtend 8, a, b]) ∧
    (a.toNat ≤ 0x7F → serialize (.chanPressure ch a) = some [0xD0 ||| ch.zeroExtend 8, a]) ∧
    ((0x7F < a.toNat ∨ 0x7F < b.toNat) →
      serialize (.noteOff ch a b) = none ∧ serialize (.noteOn ch a b) = none ∧ serialize (.cc ch a b) = none) ∧
    (0x7F < a.toNat → serialize (.chanPressure ch a) = none)

/-- 30_encoding R91: the pitch-bend word, low 7 bits first, loses nothing for any bend the encoder produces. The word and
its byte order are the spec's own general-knowledge decision D28 (log 14). -/
def Obligations.PitchBendSerializationIsLossless : Prop :=
  ∀ (ch : Bus) (bend : Int), -8191 ≤ bend → bend ≤ 8191 →
    ∃ (u : Nat) (lo hi : Byte), (u : Int) = bend + 8192 ∧ 1 ≤ u ∧ u ≤ 16383 ∧
      serialize (.pitchBend ch bend) = some [0xE0 ||| ch.zeroExtend 8, lo, hi] ∧
      lo.toNat = u &&& 0x7F ∧ hi.toNat = (u >>> 7) &&& 0x7F ∧ lo.toNat + 128 * hi.toNat = u

/-- 30_encoding R92: a SysEx record is framed by F0 and F7, and every payload byte of a record that the block builds
is at most 0x7F. That a payload with bytes above 0x7F, which the block never builds, is framed the same way is the
model's choice (log 22, DESIGN CHOICE). -/
def Obligations.SysExPayloadsAreSevenBit : Prop :=
  (∀ payload, serialize (.sysEx payload) = some ([0xF0] ++ payload ++ [0xF7])) ∧
  ∀ (s : State) (i : Instr) (ms : List Message) (payload : List Byte), s.cfg.wf = true →
    AnswersWith i s (.messages ms) → .sysEx payload ∈ ms → ∀ b ∈ payload, b.toNat ≤ 0x7F

/-- 20_memory R48 and 30_encoding R94: the lengths of the messages on the wire, and each record framed in full with
its own status byte, wherever it stands in a sequence of records: no running status. The rules are the spec's own
decisions (D33, D30); the status bytes rest on D29 (log 14, PRESUMED). -/
def Obligations.MessageLengths : Prop :=
  ∀ (m : Message) (bytes : List Byte), serialize m = some bytes →
    (∀ ch val, m = .chanPressure ch val → bytes.length = 2) ∧
    (∀ payload, m = .sysEx payload → bytes.length = payload.length + 2) ∧
    ((∀ ch val, m ≠ .chanPressure ch val) → (∀ payload, m ≠ .sysEx payload) → bytes.length = 3) ∧
    wireBytes m = bytes ∧ (∃ status rest, bytes = status :: rest ∧ 0x80 ≤ status.toNat) ∧
    (∀ before after : List Message, wireStream (before ++ m :: after) = wireStream before ++ bytes ++ wireStream after) ∧
    wireStream [] = []

/-- 60_exceptions R201: the numeric code of each domain error, which is all that the error carries, and the status of a
transport error, which carries its own code and the transport's value. No two errors share a code. The codes are the
spec's own decision (D41). -/
def Obligations.ErrorCodes : Prop :=
  DomainError.code .illegalCmd = 0x01 ∧ DomainError.code .frame = 0x02 ∧ DomainError.code .switch = 0x03 ∧
  DomainError.code .state = 0x04 ∧ DomainError.code .channel = 0x05 ∧ DomainError.code .position = 0x06 ∧
  DomainError.code .vpotSum = 0x07 ∧ DomainError.code .level = 0x08 ∧ DomainError.code .digit = 0x09 ∧
  DomainError.code .lcdRange = 0x0A ∧ DomainError.code .textChar = 0x0B ∧ DomainError.code .row = 0x0C ∧
  DomainError.code .variant = 0x0D ∧
  (∀ a b : DomainError, a.code = b.code → a = b) ∧
  statusCode .ok = none ∧
  (∀ e : TransportError, statusCode (.transportErr e) = some 0x10 ∧ resultOfStatus (.transportErr e) = .err e) ∧
  ∀ a : DomainError, a.code ≠ 0x10
end

