-- ==== Sys2Proof/Laws/Asm.lean ====
section
/-! SUPPORT. The assembler: how a line splits into its mnemonic and operands, and what each way of writing an operand is
read as. -/

namespace Sys2Proof.Machine

/-! ### Splitting a line -/

/-- A text that the splitter takes as one operand: blanks at neither end, and no comma outside quotes. -/
structure Piece (w : List Char) : Prop where
  ne : w ≠ []
  first : ∀ ch, w.head? = some ch → isBlank ch = false
  last : ∀ ch, w.getLast? = some ch → isBlank ch = false
  split : ∀ acc rest, splitOperands false acc (w ++ rest) = splitOperands false (w.reverse ++ acc) rest

theorem dropWhile_of_head {p : Char → Bool} {cs : List Char} (h : ∀ ch, cs.head? = some ch → p ch = false) :
    cs.dropWhile p = cs := by
  cases cs with
  | nil => rfl
  | cons ch rest => rw [List.dropWhile_cons, h ch rfl]; rfl

/-- Blanks are taken off both ends only. -/
theorem trimBlanks_self {w : List Char} (hf : ∀ ch, w.head? = some ch → isBlank ch = false)
    (hl : ∀ ch, w.getLast? = some ch → isBlank ch = false) : trimBlanks w = w := by
  rw [trimBlanks, dropWhile_of_head hf, dropWhile_of_head (by simpa using hl), List.reverse_reverse]

theorem trimBlanks_blank (w : List Char) : trimBlanks (' ' :: w) = trimBlanks w := rfl

theorem Piece.trim {w : List Char} (h : Piece w) : trimBlanks w = w := trimBlanks_self h.first h.last

/-- Characters that are no comma and no quote stay in the current piece. -/
theorem splitOperands_plain (quoted : Bool) (w acc rest : List Char) (h : ∀ ch ∈ w, (quoted = true ∨ ch ≠ ',') ∧ ch ≠ '"') :
    splitOperands quoted acc (w ++ rest) = splitOperands quoted (w.reverse ++ acc) rest := by
  induction w generalizing acc with
  | nil => rfl
  | cons ch w ih =>
    have hc := h ch (by simp)
    rw [List.cons_append, splitOperands, if_neg, if_neg, ih _ fun x hx => h x (List.mem_cons_of_mem _ hx)]
    · simp
    · simpa using hc.2
    · rcases hc.1 with hq | hq <;> simp [hq]

/-- A word is one operand. -/
theorem OneWord.piece {w : List Char} (h : OneWord w) : Piece w where
  ne := h.1
  first ch hc := by
    have := h.2 ch (List.mem_of_mem_head? hc)
    simp [isBlank, this]
  last ch hc := by
    have := h.2 ch (List.mem_of_getLast? hc)
    simp [isBlank, this]
  split acc rest := splitOperands_plain false w acc rest fun ch hc => ⟨.inr (h.2 ch hc).2.2.1, (h.2 ch hc).2.2.2⟩

/-- A quoted text is one operand, commas and blanks included. -/
theorem Quotes.piece {w : List Char} {text : Text} (h : Quotes w text) : Piece w := by
  obtain ⟨body, hb, rfl, -⟩ := h
  refine ⟨by simp, ?_, ?_, ?_⟩
  · intro ch hc
    obtain rfl : '"' = ch := by simpa using hc
    rfl
  · intro ch hc
    have e := hc.symm.trans (List.getLast?_concat (l := '"' :: body))
    obtain rfl := Option.some.inj e
    rfl
  · intro acc rest
    have e := splitOperands_plain true body ('"' :: acc) ('"' :: rest) fun ch hc => ⟨.inl rfl, (hb ch hc).2⟩
    simp only [List.cons_append, List.append_assoc, List.nil_append, List.reverse_append, List.reverse_cons,
      List.reverse_nil]
    rw [splitOperands, if_neg (by decide), if_pos (by decide)]
    show splitOperands true _ _ = _
    rw [e, splitOperands, if_neg (by decide), if_pos (by decide)]
    rfl

/-- Operands with a comma and a blank between them split into themselves, the later ones with their blank. -/
theorem splitOperands_intercalate (acc w : List Char) (ws : List (List Char)) (hw : Piece w)
    (h : ∀ x ∈ ws, Piece x) :
    splitOperands false acc ([',', ' '].intercalate (w :: ws)) = (acc.reverse ++ w) :: ws.map (' ' :: ·) := by
  induction ws generalizing acc w with
  | nil =>
    have e := hw.split acc []
    rw [List.append_nil] at e
    rw [List.intercalate, List.intersperse, List.flatten_singleton, e, splitOperands]
    simp
  | cons x xs ih =>
    have hx := h x (by simp)
    have e : [',', ' '].intercalate (w :: x :: xs) = w ++ ',' :: ' ' :: [',', ' '].intercalate (x :: xs) := by
      simp [List.intercalate, List.intersperse]
    rw [e, hw.split, splitOperands, if_pos (by decide), splitOperands, if_neg (by decide), if_neg (by decide),
      ih _ x hx fun y hy => h y (List.mem_cons_of_mem _ hy)]
    simp

theorem head?_intercalate (w : List Char) (ws : List (List Char)) (h : w ≠ []) :
    ([',', ' '].intercalate (w :: ws)).head? = w.head? := by
  cases w with
  | nil => exact absurd rfl h
  | cons ch rest => cases ws <;> simp [List.intercalate, List.intersperse]

theorem getLast?_intercalate (ws : List (List Char)) (hne : ws ≠ []) (h : ∀ x ∈ ws, Piece x) :
    ∀ ch, ([',', ' '].intercalate ws).getLast? = some ch → isBlank ch = false := by
  induction ws with
  | nil => exact absurd rfl hne
  | cons w ws ih =>
    cases ws with
    | nil => simpa [List.intercalate, List.intersperse] using (h w (by simp)).last
    | cons x xs =>
      have e : [',', ' '].intercalate (w :: x :: xs) = (w ++ [',', ' ']) ++ [',', ' '].intercalate (x :: xs) := by
        simp [List.intercalate, List.intersperse]
      have i := ih (by simp) fun y hy => h y (List.mem_cons_of_mem _ hy)
      intro ch hc
      rw [e, List.getLast?_append_of_ne_nil] at hc
      · exact i ch hc
      · intro e0
        have := head?_intercalate x xs (h x (by simp)).ne
        rw [e0] at this
        exact (h x (by simp)).ne (List.head?_eq_none_iff.1 this.symm)

/-- A line of a mnemonic and its operands is read as that mnemonic's command with those operands. -/
theorem assembleLine_lineOf (c : Config) (name : String) (ws : List (List Char)) (hn : OneWord name.toList)
    (h : ∀ w ∈ ws, Piece w) :
    assembleLine c (lineOf name ws) =
      match mnemonics.lookup name.toList with
      | none => none
      | some op => readCommand c op ws := by
  have hb : ∀ ch ∈ name.toList, (!isBlank ch) = true := by
    intro ch hc
    have := hn.2 ch hc
    simp [isBlank, this]
  cases ws with
  | nil =>
    have ht : trimBlanks (lineOf name []) = name.toList := by
      simpa [lineOf] using hn.piece.trim
    have h1 : name.toList.takeWhile (fun ch => !isBlank ch) = name.toList := List.takeWhile_eq_self_iff.2 hb
    have h2 : name.toList.dropWhile (fun ch => !isBlank ch) = [] := List.dropWhile_eq_nil_iff.2 hb
    simp only [assembleLine, ht, h1, h2]
    rfl
  | cons w ws =>
    have hw := h w (by simp)
    have hl : lineOf name (w :: ws) = name.toList ++ ' ' :: [',', ' '].intercalate (w :: ws) := rfl
    have hne : [',', ' '].intercalate (w :: ws) ≠ [] := by
      intro e0
      have := head?_intercalate w ws hw.ne
      rw [e0] at this
      exact hw.ne (List.head?_eq_none_iff.1 this.symm)
    have hlast := getLast?_intercalate (w :: ws) (by simp) h
    have ht : trimBlanks (lineOf name (w :: ws)) = lineOf name (w :: ws) := by
      refine trimBlanks_self ?_ ?_
      · intro ch hc
        rw [hl, List.head?_append_of_ne_nil _ hn.1] at hc
        exact hn.piece.first ch hc
      · intro ch hc
        rw [hl, List.getLast?_append_of_ne_nil _ (by simp), List.getLast?_cons,
          List.getLast?_eq_some_getLast hne] at hc
        exact hlast ch (by rw [List.getLast?_eq_some_getLast hne]; simpa using hc)
    have h1 : (lineOf name (w :: ws)).takeWhile (fun ch => !isBlank ch) = name.toList := by
      rw [hl, List.takeWhile_append_of_pos hb, List.takeWhile_cons_of_neg (by decide), List.append_nil]
    have h2 : (lineOf name (w :: ws)).dropWhile (fun ch => !isBlank ch) =
        ' ' :: [',', ' '].intercalate (w :: ws) := by
      rw [hl, List.dropWhile_append_of_pos hb, List.dropWhile_cons_of_neg (by decide)]
    have h3 : trimBlanks (' ' :: [',', ' '].intercalate (w :: ws)) = [',', ' '].intercalate (w :: ws) := by
      rw [trimBlanks_blank]
      refine trimBlanks_self ?_ hlast
      intro ch hc
      rw [head?_intercalate w ws hw.ne] at hc
      exact hw.first ch hc
    have h4 : ([',', ' '].intercalate (w :: ws)).isEmpty = false := by
      cases he : [',', ' '].intercalate (w :: ws) with
      | nil => exact absurd he hne
      | cons _ _ => rfl
    have h5 : (splitOperands false [] ([',', ' '].intercalate (w :: ws))).map trimBlanks = w :: ws := by
      rw [splitOperands_intercalate [] w ws hw fun x hx => h x (List.mem_cons_of_mem _ hx)]
      simp only [List.reverse_nil, List.nil_append, List.map_cons, hw.trim, List.map_map, List.cons.injEq, true_and]
      refine (List.map_congr_left fun x hx => ?_).trans (List.map_id _)
      exact (trimBlanks_blank x).trans (h x (List.mem_cons_of_mem _ hx)).trim
    simp only [assembleLine, ht, h1, h2, h3, h4, h5]
    rfl

/-- `OneWord` as a check that computes. -/
def isOneWord (w : List Char) : Bool :=
  !w.isEmpty && w.all fun ch => ch != ' ' && ch != '\t' && ch != ',' && ch != '"'

theorem isOneWord_iff (w : List Char) : isOneWord w = true ↔ OneWord w := by
  simp [isOneWord, OneWord, and_assoc]

/-- Every mnemonic is one word. -/
theorem operandCounts_oneWord {name : String} {k : Nat} (h : (name, k) ∈ operandCounts) : OneWord name.toList := by
  have all : operandCounts.all (fun e => isOneWord e.1.toList) = true := by rfl
  exact (isOneWord_iff _).1 (List.all_eq_true.1 all (name, k) h)

/-! ### Reading an operand -/

/-- A digit character has its value and is no separator of operands. -/
theorem digitChar_spec : ∀ d : Fin 16,
    (digitValue (Nat.digitChar d) = some d.val ∧ Nat.digitChar d ∉ [' ', '\t', ',', '"', 'x']) ∧
    (digitValue (Nat.digitChar d).toUpper = some d.val ∧ (Nat.digitChar d).toUpper ∉ [' ', '\t', ',', '"', 'x']) := by
  decide

theorem digit_spec {d : Nat} (hd : d < 16) {ch : Char} (hc : ch = d.digitChar ∨ ch = d.digitChar.toUpper) :
    digitValue ch = some d ∧ ch ∉ [' ', '\t', ',', '"', 'x'] := by
  rcases hc with rfl | rfl
  · exact (digitChar_spec ⟨d, hd⟩).1
  · exact (digitChar_spec ⟨d, hd⟩).2

/-- The digits of a number are read to its value. -/
theorem digitsFrom_digits {base : Nat} (hb : base ≤ 16) {cs : List Char} {ds : List Nat} (h : DigitsOf base cs ds)
    (n : Nat) : digitsFrom base n cs = some (ds.foldl (fun n d => base * n + d) n) := by
  induction h generalizing n with
  | nil => rfl
  | cons hd _ ih =>
    obtain ⟨hv, -⟩ := digit_spec (Nat.lt_of_lt_of_le hd.1 hb) hd.2
    simp only [digitsFrom, hv, if_pos hd.1, List.foldl_cons, ih]

theorem DigitsOf.oneWord {base : Nat} (hb : base ≤ 16) {cs : List Char} {ds : List Nat} (h : DigitsOf base cs ds) :
    ∀ ch ∈ cs, ch ≠ ' ' ∧ ch ≠ '\t' ∧ ch ≠ ',' ∧ ch ≠ '"' ∧ ch ≠ 'x' := by
  induction h with
  | nil => simp
  | cons hd _ ih =>
    intro ch hc
    rcases List.mem_cons.1 hc with rfl | hc
    · simpa using (digit_spec (Nat.lt_of_lt_of_le hd.1 hb) hd.2).2
    · exact ih ch hc

/-- Every symbolic name is one word. -/
theorem symbolValues_oneWord {c : Config} {name : String} {n : Nat} (h : (name, n) ∈ symbolValues c) :
    OneWord name.toList := by
  have all : (symbolValues c).all (fun e => isOneWord e.1.toList) = true := by
    simp [symbolValues, isOneWord]
  exact (isOneWord_iff _).1 (List.all_eq_true.1 all (name, n) h)

/-- Every symbolic name is read as its configured value. -/
theorem readValue_symbol {c : Config} {name : String} {n : Nat} (h : (name, n) ∈ symbolValues c) :
    readValue c name.toList = some n := by
  have table : (symbolValues c).map (fun e => readValue c e.1.toList) = (symbolValues c).map fun e => some e.2 := by
    simp only [symbolValues, List.map_cons, List.map_nil]
    repeat' apply congrArg₂ List.cons rfl
    rfl
  exact List.map_inj_left.1 table (name, n) h

/-- An operand is read as the number it writes. -/
theorem readValue_of_writes {c : Config} {w : List Char} {n : Nat} (h : Writes c w n) : readValue c w = some n := by
  rcases h with ⟨ds, hne, hd, rfl⟩ | ⟨cs, ds, hne, rfl, hd, rfl⟩ | ⟨name, rfl, hm⟩
  · have hr : readNumber w = digitsFrom 10 0 w := by
      have hx := hd.oneWord (by omega)
      unfold readNumber
      split
      · cases hd; exact absurd rfl hne
      · exact absurd rfl (hx 'x' (by simp)).2.2.2.2
      · rfl
    rw [readValue, hr, digitsFrom_digits (by omega) hd]
    rfl
  · cases hd with
    | nil => exact absurd rfl hne
    | cons h1 h2 =>
      rw [readValue, readNumber, digitsFrom_digits (by omega) (List.Forall₂.cons h1 h2)]
      rfl
  · exact readValue_symbol hm

/-- A text that writes a number is one word. -/
theorem Writes.oneWord {c : Config} {w : List Char} {n : Nat} (h : Writes c w n) : OneWord w := by
  rcases h with ⟨ds, hne, hd, -⟩ | ⟨cs, ds, -, rfl, hd, -⟩ | ⟨name, rfl, hm⟩
  · refine ⟨?_, fun ch hc => ?_⟩
    · rintro rfl
      cases hd
      exact hne rfl
    · have := hd.oneWord (by omega) ch hc
      exact ⟨this.1, this.2.1, this.2.2.1, this.2.2.2.1⟩
  · refine ⟨by simp, fun ch hc => ?_⟩
    rcases List.mem_cons.1 hc with rfl | hc
    · decide
    rcases List.mem_cons.1 hc with rfl | hc
    · decide
    have := hd.oneWord (by omega) ch hc
    exact ⟨this.1, this.2.1, this.2.2.1, this.2.2.2.1⟩
  · exact symbolValues_oneWord hm

theorem readByte_of_writes {c : Config} {w : List Char} {n : Nat} (h : Writes c w n) (hn : n < 256) :
    readByte c w = some (BitVec.ofNat 8 n) := by
  rw [readByte, readValue_of_writes h]
  exact if_pos hn

theorem readPosition_of_writes {c : Config} {w : List Char} {n : Nat} (h : Writes c w n) (hn : n < 65536) :
    readPosition c w = some (BitVec.ofNat 16 n) := by
  rw [readPosition, readValue_of_writes h]
  exact if_pos hn

/-- A quoted operand is read as its text. -/
theorem readQuoted_of_quotes {w : List Char} {text : Text} (h : Quotes w text) : readQuoted w = some text := by
  obtain ⟨body, hb, rfl, rfl⟩ := h
  have hr : (body ++ ['"']).reverse = '"' :: body.reverse := by simp
  have ha : body.reverse.all isTextChar = true := by
    rw [List.all_eq_true]
    intro ch hc
    have := hb ch (by simpa using hc)
    simp [isTextChar, this]
  simp only [List.cons_append, readQuoted, hr, ha, reduceIte, List.reverse_reverse]
  rfl

end Sys2Proof.Machine
end

