-- ==== Sys2Proof/Laws/Config.lean ====
section
/-! SUPPORT. What a well-formed configuration gives: the constraints of 00_scope R8 as facts about its fields. -/

namespace Sys2Proof.Config

@[simp] theorem dataByte_iff (b : Byte) : dataByte b = true ↔ b.toNat ≤ 0x7F := decide_eq_true_iff

theorem dataByte_false_iff (b : Byte) : dataByte b = false ↔ 0x7F < b.toNat := by
  rw [← Bool.not_eq_true, dataByte_iff]; omega

theorem wf_parts {c : Config} (h : c.wf = true) :
    c.countsOk = true ∧ c.headersOk = true ∧ c.displaysOk = true ∧ c.namedValuesOk = true ∧ c.orderOk = true ∧
    1 ≤ c.clockTicksPerMs := by
  simpa [wf, and_assoc] using h

theorem wf_counts {c : Config} (h : c.wf = true) :
    1 ≤ c.lenIDs ∧ c.lenIDs ≤ 128 ∧ 1 ≤ c.lenDigits ∧ c.lenDigits ≤ 64 ∧ 1 ≤ c.lenLines ∧ 1 ≤ c.lineWidth ∧
    c.lenLines * c.lineWidth ≤ c.lcdSizeStd := by
  simpa [countsOk, and_assoc] using (wf_parts h).1

theorem wf_displays {c : Config} (h : c.wf = true) :
    c.lcdFrameByte.toNat ≤ 0x7F ∧ (∀ v, 1 ≤ c.lcdSize v ∧ c.lcdSize v ≤ 128) ∧
    1 ≤ c.lenC4Rows ∧ c.lenC4Rows ≤ 0x50 := by
  have h' := (wf_parts h).2.2.1
  simp only [displaysOk, sizeOk, Bool.and_eq_true, dataByte_iff, decide_eq_true_eq] at h'
  refine ⟨h'.1.1.1.1.1, ?_, h'.1.2, h'.2⟩
  intro v
  cases v
  · exact h'.1.1.1.1.2
  · exact h'.1.1.1.2
  · exact h'.1.1.2

/-- Every header byte is a data byte. -/
theorem wf_header {c : Config} (h : c.wf = true) (v : Variant) : ∀ b ∈ (c.header v).bytes, b.toNat ≤ 0x7F := by
  have h' := (wf_parts h).2.1
  simp only [headersOk, headerOk, Bool.and_eq_true, List.all_eq_true, dataByte_iff] at h'
  cases v
  · exact h'.1.1.1.1.1
  · exact h'.1.1.1.1.2
  · exact h'.1.1.1.2

theorem wf_named {c : Config} (h : c.wf = true) :
    c.stateOn.toNat ≤ 0x7F ∧ c.stateOff.toNat ≤ 0x7F ∧ c.stateOn ≠ c.stateOff ∧
    c.meterLessThan60.toNat < 16 ∧ c.meterClipping.toNat < 16 ∧ c.meterClipOff.toNat < 16 ∧
    c.meterClipOff ≠ c.meterClipping ∧
    c.vpotMode3.toNat + c.vpotLEDCenter.toNat ≤ 0xFF ∧ c.vpotMode0.toNat + c.vpotLEDOff.toNat ≤ 0xFF := by
  have h' := (wf_parts h).2.2.2.1
  simpa only [namedValuesOk, Bool.and_eq_true, dataByte_iff, decide_eq_true_eq, bne_iff_ne, and_assoc] using h'

@[simp] theorem length_header_bytes (h : Header) : h.bytes.length = 4 := rfl

/-- A header is known from its bytes. -/
theorem header_bytes_inj {h k : Header} (e : h.bytes = k.bytes) : h = k := by
  cases h; cases k
  simpa [Header.bytes] using e

theorem settleTicks_eq (c : Config) : c.settleTicks = 100 * c.clockTicksPerMs := rfl

end Sys2Proof.Config
end

