-- ==== Sys2Proof/Laws/Operands.lean ====
section
/-! SUPPORT. The check primitive and the operand functions: when a check passes, what it leaves, and that exact sums
survive their narrowing to a byte. -/

namespace Sys2Proof.Machine

@[simp] theorem require_true (e : DomainError) (r : Result) : require true e r = r := rfl

@[simp] theorem require_false (e : DomainError) (r : Result) : require false e r = .error e := rfl

/-- A check that is passed leaves the rest; one that fails leaves its error. -/
theorem require_cases (p : Bool) (e : DomainError) (r : Result) :
    (p = true ∧ require p e r = r) ∨ (p = false ∧ require p e r = .error e) := by
  cases p <;> simp

@[simp] theorem byteOf_toNat_self (b : Byte) : byteOf b.toNat = b := by simp [byteOf]

theorem byteOf_toNat (n : Nat) (h : n < 256) : (byteOf n).toNat = n := by
  simp [byteOf, Nat.mod_eq_of_lt h]

@[simp] theorem channelOk_iff (ch : Byte) : channelOk ch = true ↔ ch.toNat ≤ 8 :=
  decide_eq_true_iff

@[simp] theorem switchOk_iff (c : Config) (sw : Byte) : switchOk c sw = true ↔ sw.toNat < c.lenIDs := by
  simp [switchOk]

@[simp] theorem ledStateOk_iff (c : Config) (st : Byte) :
    ledStateOk c st = true ↔ st = c.stateOn ∨ st = c.stateOff := by
  simp [ledStateOk]

@[simp] theorem positionOk_iff (pos : Word16) : positionOk pos = true ↔ pos.toNat ≤ 16382 :=
  decide_eq_true_iff

@[simp] theorem vpotSumOk_iff (mode led : Byte) : vpotSumOk mode led = true ↔ mode.toNat + led.toNat ≤ 0xFF :=
  decide_eq_true_iff

@[simp] theorem levelOk_iff (level : Byte) : levelOk level = true ↔ level.toNat < 16 := by simp [levelOk]

@[simp] theorem digitOk_iff (c : Config) (d : Byte) : digitOk c d = true ↔ d.toNat < c.lenDigits := by
  simp [digitOk]

@[simp] theorem rowOk_iff (c : Config) (row : Byte) : rowOk c row = true ↔ row.toNat < c.lenC4Rows := by
  simp [rowOk]

@[simp] theorem textOk_iff (text : Text) : textOk text = true ↔ ∀ b ∈ text, b.toNat ≤ 0x7F := by
  simp [textOk, Config.dataByte]

@[simp] theorem lcdOffsetOk_iff (size : Nat) (off : Byte) : lcdOffsetOk size off = true ↔ off.toNat < size := by
  simp [lcdOffsetOk]

@[simp] theorem lcdLengthOk_iff (size : Nat) (off : Byte) (text : Text) :
    lcdLengthOk size off text = true ↔ off.toNat + text.length ≤ size := by
  simp [lcdLengthOk]

/-- `LCDCheckOffset` passes exactly on the display. -/
theorem lcdCheckOffset_eq (size : Nat) (off : Byte) (r : Result) :
    lcdCheckOffset size off r = if off.toNat < size then r else .error .lcdRange := by
  simp [lcdCheckOffset, require]

/-- `LCDCheckText` checks the length, then the characters. -/
theorem lcdCheckText_eq (size : Nat) (off : Byte) (text : Text) (r : Result) :
    lcdCheckText size off text r =
      if off.toNat + text.length ≤ size then (if ∀ b ∈ text, b.toNat ≤ 0x7F then r else .error .textChar)
      else .error .lcdRange := by
  simp only [lcdCheckText, require, lcdLengthOk_iff, textOk_iff]

/-- The three variants are the bytes 0, 1 and 2. -/
theorem variantOf_eq_none (v : Byte) : variantOf v = none ↔ 3 ≤ v.toNat := by
  revert v; decide

theorem length_timeMessages (k : Nat) (bs : List Byte) : (timeMessages k bs).length = bs.length := by
  induction bs generalizing k with
  | nil => rfl
  | cons b rest ih => simp [timeMessages, ih]

/-- Message `j` of the strip addresses controller `0x40 + k + j`. -/
theorem getElem?_timeMessages (k j : Nat) (bs : List Byte) :
    (timeMessages k bs)[j]? = bs[j]?.map fun b => .cc Config.digitBus (byteOf (Config.digitBase + (k + j))) b := by
  induction bs generalizing k j with
  | nil => simp [timeMessages]
  | cons b rest ih =>
    cases j with
    | zero => simp [timeMessages]
    | succ j => simp [timeMessages, ih, Nat.add_comm, Nat.add_left_comm]

theorem length_timeCells (text : Text) : (timeCells text).length = min 10 text.length := by
  simp [timeCells, Config.timeDisplayLen]

end Sys2Proof.Machine
end

