-- ==== Sys2Proof/Laws/State.lean ====
section
/-! SUPPORT. What each operation makes of each field of State, so that no proof unfolds a record update. -/

namespace Sys2Proof.Machine

variable (s : State)

/-! ### emit -/

@[simp] theorem emit_cfg (r : Result) : (emit r s).cfg = s.cfg := rfl
@[simp] theorem emit_rsPhase (r : Result) : (emit r s).rsPhase = s.rsPhase := rfl
@[simp] theorem emit_rsIndex (r : Result) : (emit r s).rsIndex = s.rsIndex := rfl
@[simp] theorem emit_rsPending (r : Result) : (emit r s).rsPending = s.rsPending := rfl
@[simp] theorem emit_rsSettleStart (r : Result) : (emit r s).rsSettleStart = s.rsSettleStart := rfl
@[simp] theorem emit_rsResult (r : Result) : (emit r s).rsResult = s.rsResult := rfl
@[simp] theorem emit_clock (r : Result) : (emit r s).clock = s.clock := rfl
@[simp] theorem emit_held (r : Result) : (emit r s).held = s.held := rfl
@[simp] theorem emit_abandoned (r : Result) : (emit r s).abandoned = s.abandoned := rfl
@[simp] theorem emit_results (r : Result) : (emit r s).results = s.results ++ [r] := rfl
@[simp] theorem emit_transport (r : Result) : (emit r s).transport = s.transport := rfl
@[simp] theorem emit_statuses (r : Result) : (emit r s).statuses = s.statuses := rfl
@[simp] theorem emit_inputs (r : Result) : (emit r s).inputs = s.inputs := rfl

/-! ### report -/

@[simp] theorem report_cfg (st : Status) : (report st s).cfg = s.cfg := rfl
@[simp] theorem report_rsPhase (st : Status) : (report st s).rsPhase = s.rsPhase := rfl
@[simp] theorem report_rsIndex (st : Status) : (report st s).rsIndex = s.rsIndex := rfl
@[simp] theorem report_rsPending (st : Status) : (report st s).rsPending = s.rsPending := rfl
@[simp] theorem report_rsSettleStart (st : Status) : (report st s).rsSettleStart = s.rsSettleStart := rfl
@[simp] theorem report_rsResult (st : Status) : (report st s).rsResult = resultOfStatus st := rfl
@[simp] theorem report_clock (st : Status) : (report st s).clock = s.clock := rfl
@[simp] theorem report_held (st : Status) : (report st s).held = s.held := rfl
@[simp] theorem report_abandoned (st : Status) : (report st s).abandoned = s.abandoned := rfl
@[simp] theorem report_results (st : Status) : (report st s).results = s.results := rfl
@[simp] theorem report_transport (st : Status) : (report st s).transport = s.transport := rfl
@[simp] theorem report_statuses (st : Status) : (report st s).statuses = s.statuses ++ [st] := rfl
@[simp] theorem report_inputs (st : Status) : (report st s).inputs = s.inputs := rfl

/-! ### onTransport -/

@[simp] theorem onTransport_cfg (a : PortAction) : (onTransport a s).cfg = s.cfg := rfl
@[simp] theorem onTransport_rsPhase (a : PortAction) : (onTransport a s).rsPhase = s.rsPhase := rfl
@[simp] theorem onTransport_rsIndex (a : PortAction) : (onTransport a s).rsIndex = s.rsIndex := rfl
@[simp] theorem onTransport_rsPending (a : PortAction) : (onTransport a s).rsPending = s.rsPending := rfl
@[simp] theorem onTransport_rsSettleStart (a : PortAction) : (onTransport a s).rsSettleStart = s.rsSettleStart := rfl
@[simp] theorem onTransport_rsResult (a : PortAction) : (onTransport a s).rsResult = s.rsResult := rfl
@[simp] theorem onTransport_clock (a : PortAction) : (onTransport a s).clock = s.clock := rfl
@[simp] theorem onTransport_held (a : PortAction) : (onTransport a s).held = s.held := rfl
@[simp] theorem onTransport_abandoned (a : PortAction) : (onTransport a s).abandoned = s.abandoned := rfl
@[simp] theorem onTransport_results (a : PortAction) : (onTransport a s).results = s.results := rfl
@[simp] theorem onTransport_transport (a : PortAction) : (onTransport a s).transport = s.transport ++ [⟨s.clock, a⟩] := rfl
@[simp] theorem onTransport_statuses (a : PortAction) : (onTransport a s).statuses = s.statuses := rfl
@[simp] theorem onTransport_inputs (a : PortAction) : (onTransport a s).inputs = s.inputs := rfl

/-! ### offerSend -/

@[simp] theorem offerSend_cfg (m : Message) : (offerSend m s).cfg = s.cfg := rfl
@[simp] theorem offerSend_rsPhase (m : Message) : (offerSend m s).rsPhase = s.rsPhase := rfl
@[simp] theorem offerSend_rsIndex (m : Message) : (offerSend m s).rsIndex = s.rsIndex := rfl
@[simp] theorem offerSend_rsPending (m : Message) : (offerSend m s).rsPending = true := rfl
@[simp] theorem offerSend_rsSettleStart (m : Message) : (offerSend m s).rsSettleStart = s.rsSettleStart := rfl
@[simp] theorem offerSend_rsResult (m : Message) : (offerSend m s).rsResult = s.rsResult := rfl
@[simp] theorem offerSend_clock (m : Message) : (offerSend m s).clock = s.clock := rfl
@[simp] theorem offerSend_held (m : Message) : (offerSend m s).held = s.held := rfl
@[simp] theorem offerSend_abandoned (m : Message) : (offerSend m s).abandoned = s.abandoned := rfl
@[simp] theorem offerSend_results (m : Message) : (offerSend m s).results = s.results := rfl
@[simp] theorem offerSend_transport (m : Message) : (offerSend m s).transport = s.transport ++ [⟨s.clock, .offered m⟩] := rfl
@[simp] theorem offerSend_statuses (m : Message) : (offerSend m s).statuses = s.statuses := rfl
@[simp] theorem offerSend_inputs (m : Message) : (offerSend m s).inputs = s.inputs := rfl

/-! ### acknowledgeSend -/

@[simp] theorem acknowledgeSend_cfg : (acknowledgeSend s).cfg = s.cfg := rfl
@[simp] theorem acknowledgeSend_rsPhase : (acknowledgeSend s).rsPhase = s.rsPhase := rfl
@[simp] theorem acknowledgeSend_rsIndex : (acknowledgeSend s).rsIndex = s.rsIndex + 1 := rfl
@[simp] theorem acknowledgeSend_rsPending : (acknowledgeSend s).rsPending = false := rfl
@[simp] theorem acknowledgeSend_rsSettleStart : (acknowledgeSend s).rsSettleStart = s.rsSettleStart := rfl
@[simp] theorem acknowledgeSend_rsResult : (acknowledgeSend s).rsResult = s.rsResult := rfl
@[simp] theorem acknowledgeSend_clock : (acknowledgeSend s).clock = s.clock := rfl
@[simp] theorem acknowledgeSend_held : (acknowledgeSend s).held = s.held := rfl
@[simp] theorem acknowledgeSend_abandoned : (acknowledgeSend s).abandoned = s.abandoned := rfl
@[simp] theorem acknowledgeSend_results : (acknowledgeSend s).results = s.results := rfl
@[simp] theorem acknowledgeSend_transport : (acknowledgeSend s).transport = s.transport ++ [⟨s.clock, .answered .ok⟩] := rfl
@[simp] theorem acknowledgeSend_statuses : (acknowledgeSend s).statuses = s.statuses := rfl
@[simp] theorem acknowledgeSend_inputs : (acknowledgeSend s).inputs = s.inputs := rfl

/-! ### takeTransportError -/

@[simp] theorem takeTransportError_cfg (e : TransportError) : (takeTransportError e s).cfg = s.cfg := rfl
@[simp] theorem takeTransportError_rsPhase (e : TransportError) : (takeTransportError e s).rsPhase = .idle := rfl
@[simp] theorem takeTransportError_rsIndex (e : TransportError) : (takeTransportError e s).rsIndex = s.rsIndex := rfl
@[simp] theorem takeTransportError_rsPending (e : TransportError) : (takeTransportError e s).rsPending = false := rfl
@[simp] theorem takeTransportError_rsSettleStart (e : TransportError) : (takeTransportError e s).rsSettleStart = s.rsSettleStart := rfl
@[simp] theorem takeTransportError_rsResult (e : TransportError) : (takeTransportError e s).rsResult = .err e := rfl
@[simp] theorem takeTransportError_clock (e : TransportError) : (takeTransportError e s).clock = s.clock := rfl
@[simp] theorem takeTransportError_held (e : TransportError) : (takeTransportError e s).held = s.held := rfl
@[simp] theorem takeTransportError_abandoned (e : TransportError) : (takeTransportError e s).abandoned = s.abandoned := rfl
@[simp] theorem takeTransportError_results (e : TransportError) : (takeTransportError e s).results = s.results := rfl
@[simp] theorem takeTransportError_transport (e : TransportError) : (takeTransportError e s).transport = s.transport ++ [⟨s.clock, .answered (.err e)⟩] := rfl
@[simp] theorem takeTransportError_statuses (e : TransportError) : (takeTransportError e s).statuses = s.statuses ++ [.transportErr e] := rfl
@[simp] theorem takeTransportError_inputs (e : TransportError) : (takeTransportError e s).inputs = s.inputs := rfl

/-! ### holdReset -/

@[simp] theorem holdReset_cfg : (holdReset s).cfg = s.cfg := rfl
@[simp] theorem holdReset_rsPhase : (holdReset s).rsPhase = s.rsPhase := rfl
@[simp] theorem holdReset_rsIndex : (holdReset s).rsIndex = s.rsIndex := rfl
@[simp] theorem holdReset_rsPending : (holdReset s).rsPending = s.rsPending := rfl
@[simp] theorem holdReset_rsSettleStart : (holdReset s).rsSettleStart = s.rsSettleStart := rfl
@[simp] theorem holdReset_rsResult : (holdReset s).rsResult = s.rsResult := rfl
@[simp] theorem holdReset_clock : (holdReset s).clock = s.clock := rfl
@[simp] theorem holdReset_held : (holdReset s).held = s.held + 1 := rfl
@[simp] theorem holdReset_abandoned : (holdReset s).abandoned = s.abandoned := rfl
@[simp] theorem holdReset_results : (holdReset s).results = s.results := rfl
@[simp] theorem holdReset_transport : (holdReset s).transport = s.transport := rfl
@[simp] theorem holdReset_statuses : (holdReset s).statuses = s.statuses := rfl
@[simp] theorem holdReset_inputs : (holdReset s).inputs = s.inputs := rfl

/-! ### powerOnReset -/

@[simp] theorem powerOnReset_cfg (x : Nat) : (powerOnReset x s).cfg = s.cfg := rfl
@[simp] theorem powerOnReset_rsPhase (x : Nat) : (powerOnReset x s).rsPhase = .idle := rfl
@[simp] theorem powerOnReset_rsIndex (x : Nat) : (powerOnReset x s).rsIndex = 0 := rfl
@[simp] theorem powerOnReset_rsPending (x : Nat) : (powerOnReset x s).rsPending = false := rfl
@[simp] theorem powerOnReset_rsSettleStart (x : Nat) : (powerOnReset x s).rsSettleStart = x := rfl
@[simp] theorem powerOnReset_rsResult (x : Nat) : (powerOnReset x s).rsResult = .none := rfl
@[simp] theorem powerOnReset_clock (x : Nat) : (powerOnReset x s).clock = s.clock := rfl
@[simp] theorem powerOnReset_held (x : Nat) : (powerOnReset x s).held = s.held := rfl
@[simp] theorem powerOnReset_abandoned (x : Nat) : (powerOnReset x s).abandoned = s.abandoned + (if s.rsPending then 1 else 0) := rfl
@[simp] theorem powerOnReset_results (x : Nat) : (powerOnReset x s).results = s.results := rfl
@[simp] theorem powerOnReset_transport (x : Nat) : (powerOnReset x s).transport = s.transport := rfl
@[simp] theorem powerOnReset_statuses (x : Nat) : (powerOnReset x s).statuses = s.statuses := rfl
@[simp] theorem powerOnReset_inputs (x : Nat) : (powerOnReset x s).inputs = s.inputs := rfl

/-! ### startReset -/

@[simp] theorem startReset_cfg : (startReset s).cfg = s.cfg := rfl
@[simp] theorem startReset_rsPhase : (startReset s).rsPhase = .phaseA := rfl
@[simp] theorem startReset_rsIndex : (startReset s).rsIndex = 0 := rfl
@[simp] theorem startReset_rsPending : (startReset s).rsPending = false := rfl
@[simp] theorem startReset_rsSettleStart : (startReset s).rsSettleStart = s.rsSettleStart := rfl
@[simp] theorem startReset_rsResult : (startReset s).rsResult = s.rsResult := rfl
@[simp] theorem startReset_clock : (startReset s).clock = s.clock := rfl
@[simp] theorem startReset_held : (startReset s).held = s.held := rfl
@[simp] theorem startReset_abandoned : (startReset s).abandoned = s.abandoned := rfl
@[simp] theorem startReset_results : (startReset s).results = s.results := rfl
@[simp] theorem startReset_transport : (startReset s).transport = s.transport := rfl
@[simp] theorem startReset_statuses : (startReset s).statuses = s.statuses := rfl
@[simp] theorem startReset_inputs : (startReset s).inputs = s.inputs := rfl

/-! ### endPhaseA -/

@[simp] theorem endPhaseA_cfg : (endPhaseA s).cfg = s.cfg := rfl
@[simp] theorem endPhaseA_rsPhase : (endPhaseA s).rsPhase = .settle := rfl
@[simp] theorem endPhaseA_rsIndex : (endPhaseA s).rsIndex = s.rsIndex := rfl
@[simp] theorem endPhaseA_rsPending : (endPhaseA s).rsPending = s.rsPending := rfl
@[simp] theorem endPhaseA_rsSettleStart : (endPhaseA s).rsSettleStart = s.clock := rfl
@[simp] theorem endPhaseA_rsResult : (endPhaseA s).rsResult = s.rsResult := rfl
@[simp] theorem endPhaseA_clock : (endPhaseA s).clock = s.clock := rfl
@[simp] theorem endPhaseA_held : (endPhaseA s).held = s.held := rfl
@[simp] theorem endPhaseA_abandoned : (endPhaseA s).abandoned = s.abandoned := rfl
@[simp] theorem endPhaseA_results : (endPhaseA s).results = s.results := rfl
@[simp] theorem endPhaseA_transport : (endPhaseA s).transport = s.transport := rfl
@[simp] theorem endPhaseA_statuses : (endPhaseA s).statuses = s.statuses := rfl
@[simp] theorem endPhaseA_inputs : (endPhaseA s).inputs = s.inputs := rfl

/-! ### endSettle -/

@[simp] theorem endSettle_cfg : (endSettle s).cfg = s.cfg := rfl
@[simp] theorem endSettle_rsPhase : (endSettle s).rsPhase = .phaseB := rfl
@[simp] theorem endSettle_rsIndex : (endSettle s).rsIndex = 0 := rfl
@[simp] theorem endSettle_rsPending : (endSettle s).rsPending = s.rsPending := rfl
@[simp] theorem endSettle_rsSettleStart : (endSettle s).rsSettleStart = s.rsSettleStart := rfl
@[simp] theorem endSettle_rsResult : (endSettle s).rsResult = s.rsResult := rfl
@[simp] theorem endSettle_clock : (endSettle s).clock = s.clock := rfl
@[simp] theorem endSettle_held : (endSettle s).held = s.held := rfl
@[simp] theorem endSettle_abandoned : (endSettle s).abandoned = s.abandoned := rfl
@[simp] theorem endSettle_results : (endSettle s).results = s.results := rfl
@[simp] theorem endSettle_transport : (endSettle s).transport = s.transport := rfl
@[simp] theorem endSettle_statuses : (endSettle s).statuses = s.statuses := rfl
@[simp] theorem endSettle_inputs : (endSettle s).inputs = s.inputs := rfl

/-! ### endPhaseB -/

@[simp] theorem endPhaseB_cfg : (endPhaseB s).cfg = s.cfg := rfl
@[simp] theorem endPhaseB_rsPhase : (endPhaseB s).rsPhase = .idle := rfl
@[simp] theorem endPhaseB_rsIndex : (endPhaseB s).rsIndex = s.rsIndex := rfl
@[simp] theorem endPhaseB_rsPending : (endPhaseB s).rsPending = s.rsPending := rfl
@[simp] theorem endPhaseB_rsSettleStart : (endPhaseB s).rsSettleStart = s.rsSettleStart := rfl
@[simp] theorem endPhaseB_rsResult : (endPhaseB s).rsResult = .ok := rfl
@[simp] theorem endPhaseB_clock : (endPhaseB s).clock = s.clock := rfl
@[simp] theorem endPhaseB_held : (endPhaseB s).held = s.held := rfl
@[simp] theorem endPhaseB_abandoned : (endPhaseB s).abandoned = s.abandoned := rfl
@[simp] theorem endPhaseB_results : (endPhaseB s).results = s.results := rfl
@[simp] theorem endPhaseB_transport : (endPhaseB s).transport = s.transport := rfl
@[simp] theorem endPhaseB_statuses : (endPhaseB s).statuses = s.statuses ++ [.ok] := rfl
@[simp] theorem endPhaseB_inputs : (endPhaseB s).inputs = s.inputs := rfl

/-! ### advanceClock -/

@[simp] theorem advanceClock_cfg (d : Nat) : (advanceClock d s).cfg = s.cfg := rfl
@[simp] theorem advanceClock_rsPhase (d : Nat) : (advanceClock d s).rsPhase = s.rsPhase := rfl
@[simp] theorem advanceClock_rsIndex (d : Nat) : (advanceClock d s).rsIndex = s.rsIndex := rfl
@[simp] theorem advanceClock_rsPending (d : Nat) : (advanceClock d s).rsPending = s.rsPending := rfl
@[simp] theorem advanceClock_rsSettleStart (d : Nat) : (advanceClock d s).rsSettleStart = s.rsSettleStart := rfl
@[simp] theorem advanceClock_rsResult (d : Nat) : (advanceClock d s).rsResult = s.rsResult := rfl
@[simp] theorem advanceClock_clock (d : Nat) : (advanceClock d s).clock = s.clock + d := rfl
@[simp] theorem advanceClock_held (d : Nat) : (advanceClock d s).held = s.held := rfl
@[simp] theorem advanceClock_abandoned (d : Nat) : (advanceClock d s).abandoned = s.abandoned := rfl
@[simp] theorem advanceClock_results (d : Nat) : (advanceClock d s).results = s.results := rfl
@[simp] theorem advanceClock_transport (d : Nat) : (advanceClock d s).transport = s.transport := rfl
@[simp] theorem advanceClock_statuses (d : Nat) : (advanceClock d s).statuses = s.statuses := rfl
@[simp] theorem advanceClock_inputs (d : Nat) : (advanceClock d s).inputs = s.inputs := rfl

/-! ### withInput -/

@[simp] theorem withInput_cfg (x : Input) : (withInput x s).cfg = s.cfg := rfl
@[simp] theorem withInput_rsPhase (x : Input) : (withInput x s).rsPhase = s.rsPhase := rfl
@[simp] theorem withInput_rsIndex (x : Input) : (withInput x s).rsIndex = s.rsIndex := rfl
@[simp] theorem withInput_rsPending (x : Input) : (withInput x s).rsPending = s.rsPending := rfl
@[simp] theorem withInput_rsSettleStart (x : Input) : (withInput x s).rsSettleStart = s.rsSettleStart := rfl
@[simp] theorem withInput_rsResult (x : Input) : (withInput x s).rsResult = s.rsResult := rfl
@[simp] theorem withInput_clock (x : Input) : (withInput x s).clock = s.clock := rfl
@[simp] theorem withInput_held (x : Input) : (withInput x s).held = s.held := rfl
@[simp] theorem withInput_abandoned (x : Input) : (withInput x s).abandoned = s.abandoned := rfl
@[simp] theorem withInput_results (x : Input) : (withInput x s).results = s.results := rfl
@[simp] theorem withInput_transport (x : Input) : (withInput x s).transport = s.transport := rfl
@[simp] theorem withInput_statuses (x : Input) : (withInput x s).statuses = s.statuses := rfl
@[simp] theorem withInput_inputs (x : Input) : (withInput x s).inputs = x :: s.inputs := rfl

/-! ### Power-on and the placed frame -/

@[simp] theorem powerOn_cfg (c : Config) : (State.powerOn c).cfg = c := rfl
@[simp] theorem powerOn_rsPhase (c : Config) : (State.powerOn c).rsPhase = .idle := rfl
@[simp] theorem powerOn_rsIndex (c : Config) : (State.powerOn c).rsIndex = 0 := rfl
@[simp] theorem powerOn_rsPending (c : Config) : (State.powerOn c).rsPending = false := rfl
@[simp] theorem powerOn_rsSettleStart (c : Config) : (State.powerOn c).rsSettleStart = 0 := rfl
@[simp] theorem powerOn_rsResult (c : Config) : (State.powerOn c).rsResult = .none := rfl
@[simp] theorem powerOn_clock (c : Config) : (State.powerOn c).clock = 0 := rfl
@[simp] theorem powerOn_held (c : Config) : (State.powerOn c).held = 0 := rfl
@[simp] theorem powerOn_abandoned (c : Config) : (State.powerOn c).abandoned = 0 := rfl
@[simp] theorem powerOn_results (c : Config) : (State.powerOn c).results = [] := rfl
@[simp] theorem powerOn_transport (c : Config) : (State.powerOn c).transport = [] := rfl
@[simp] theorem powerOn_statuses (c : Config) : (State.powerOn c).statuses = [] := rfl
@[simp] theorem powerOn_inputs (c : Config) : (State.powerOn c).inputs = [] := rfl

theorem withFetchWord_eq (nbits w : Nat) :
    s.withFetchWord nbits w = { s with inputs := .frame (tableFrame nbits w) :: s.inputs } := rfl

end Sys2Proof.Machine
end

