-- ==== Sys2Proof/Laws/Ops.lean ====
section
/-! SUPPORT. One lemma per shared operation: everything it can do. -/

namespace Sys2Proof.Machine

/-- Ending a command appends its result and changes nothing else, whatever the result is. -/
@[simp] theorem finish_eq (r : Result) (s : State) : finish r s = .next (emit r s) := by
  cases r <;> rfl

theorem emit_eq (r : Result) (s : State) : emit r s = { s with results := s.results ++ [r] } := rfl

/-- Every command but Reset ends with its encoder result. -/
theorem exec_encoder (i : Instr) (s : State) (r : Result) (h : encoderResult s.cfg i = some r) :
    exec i s = .next (emit r s) := by
  cases i <;> simp only [encoderResult, Option.some.injEq, reduceCtorEq] at h <;> subst h <;>
    simp [exec, execSetLED, execSendOff, execSendOffVelocity, execSetFaderPos, execSetVPot, execSetMeter,
      execSetDigit, execSetTimeDisplay, execSetLCD, execSetLCDXT, execSetLCDC4, execHeaderFor]

/-- Every command but Reset has an encoder result. -/
theorem encoderResult_isSome (c : Config) (i : Instr) (h : i ≠ .reset) : ∃ r, encoderResult c i = some r := by
  cases i <;> simp_all [encoderResult]

/-- A command but Reset is answered with its encoder result and with nothing else. -/
theorem answersWith_iff (i : Instr) (s : State) (r r' : Result) (h : encoderResult s.cfg i = some r) :
    AnswersWith i s r' ↔ r = r' := by
  unfold AnswersWith
  rw [exec_encoder i s r h, emit_eq]
  constructor
  · intro e
    injection e with e
    simpa using congrArg State.results e
  · rintro rfl
    rfl

/-- Reset starts the sequencer when it is idle and is held otherwise. -/
theorem exec_reset (s : State) :
    exec .reset s = if s.rsPhase = .idle then .next (startReset s) else .next (holdReset s) := rfl

/-- What any command does: it answers its result, or it is Reset. -/
theorem exec_cases (i : Instr) (s : State) :
    (∃ r, encoderResult s.cfg i = some r ∧ exec i s = .next (emit r s)) ∨
    (i = .reset ∧ s.rsPhase = .idle ∧ exec i s = .next (startReset s)) ∨
    (i = .reset ∧ s.rsPhase ≠ .idle ∧ exec i s = .next (holdReset s)) := by
  by_cases h : i = .reset
  · subst h
    by_cases hp : s.rsPhase = .idle
    · exact .inr (.inl ⟨rfl, hp, by simp [exec_reset, hp]⟩)
    · exact .inr (.inr ⟨rfl, hp, by simp [exec_reset, hp]⟩)
  · obtain ⟨r, hr⟩ := encoderResult_isSome s.cfg i h
    exact .inl ⟨r, hr, exec_encoder i s r hr⟩

/-- What any frame does: it answers one result, or it is the Reset frame. -/
theorem acceptFrame_cases (f : Frame) (s : State) :
    (∃ r, acceptFrame f s = .next (emit r s) ∧
      ((∃ i, decode f = .ok i ∧ i ≠ .reset ∧ encoderResult s.cfg i = some r) ∨
       (∃ e, decode f = .error e ∧ r = .error (frameError e)))) ∨
    (decode f = .ok .reset ∧ s.rsPhase = .idle ∧ acceptFrame f s = .next (startReset s)) ∨
    (decode f = .ok .reset ∧ s.rsPhase ≠ .idle ∧ acceptFrame f s = .next (holdReset s)) := by
  unfold acceptFrame
  cases hd : decode f with
  | error e => exact .inl ⟨_, rfl, .inr ⟨e, rfl, rfl⟩⟩
  | ok i =>
    rcases exec_cases i s with ⟨r, hr, h⟩ | ⟨rfl, hp, h⟩ | ⟨rfl, hp, h⟩
    · refine .inl ⟨r, h, .inl ⟨i, rfl, ?_, hr⟩⟩
      rintro rfl
      simp [encoderResult] at hr
    · exact .inr (.inl ⟨rfl, hp, h⟩)
    · exact .inr (.inr ⟨rfl, hp, h⟩)

/-- Reading and writing `rs_result` go with the status port. -/
theorem report_eq (st : Status) (s : State) :
    report st s = { s with rsResult := resultOfStatus st, statuses := s.statuses ++ [st] } := rfl

end Sys2Proof.Machine
end

