-- ==== Sys2Proof/Laws/Lcd.lean ====
section
/-! SUPPORT. The LCD results as one chain of checks each, and the parts of an LCD payload. -/

namespace Sys2Proof.Machine

theorem lcdResult_eq (c : Config) (off : Byte) (text : Text) : lcdResult c off text =
    if off.toNat < c.lcdSizeStd then
      if off.toNat + text.length ≤ c.lcdSizeStd then
        if ∀ b ∈ text, b.toNat ≤ 0x7F then .messages [.sysEx (lcdPayload c .std c.lcdFrameByte off text)]
        else .error .textChar
      else .error .lcdRange
    else .error .lcdRange := by
  simp only [lcdResult, lcdCheckOffset_eq, lcdCheckText_eq]
  rfl

theorem lcdXTResult_eq (c : Config) (off : Byte) (text : Text) : lcdXTResult c off text =
    if off.toNat < c.lcdSizeXT then
      if off.toNat + text.length ≤ c.lcdSizeXT then
        if ∀ b ∈ text, b.toNat ≤ 0x7F then .messages [.sysEx (lcdPayload c .xt c.lcdFrameByte off text)]
        else .error .textChar
      else .error .lcdRange
    else .error .lcdRange := by
  simp only [lcdXTResult, lcdCheckOffset_eq, lcdCheckText_eq]
  rfl

theorem lcdC4Result_eq (c : Config) (off row : Byte) (text : Text) : lcdC4Result c off row text =
    if off.toNat < c.lcdSizeC4 then
      if row.toNat < c.lenC4Rows then
        if off.toNat + text.length ≤ c.lcdSizeC4 then
          if ∀ b ∈ text, b.toNat ≤ 0x7F then .messages [.sysEx (lcdPayload c .c4 (rowByte row) off text)]
          else .error .textChar
        else .error .lcdRange
      else .error .row
    else .error .lcdRange := by
  simp only [lcdC4Result, lcdCheckOffset_eq, lcdCheckText_eq, require, rowOk_iff]
  rfl

theorem length_lcdPayload (c : Config) (v : Variant) (fb off : Byte) (text : Text) :
    (lcdPayload c v fb off text).length = 6 + text.length := by
  simp [lcdPayload, headerROM]
  omega

@[simp] theorem take_lcdPayload (c : Config) (v : Variant) (fb off : Byte) (text : Text) :
    (lcdPayload c v fb off text).take 4 = (c.header v).bytes := rfl

@[simp] theorem drop_lcdPayload (c : Config) (v : Variant) (fb off : Byte) (text : Text) :
    (lcdPayload c v fb off text).drop 6 = text := rfl

theorem mem_lcdPayload (c : Config) (v : Variant) (fb off b : Byte) (text : Text) :
    b ∈ lcdPayload c v fb off text ↔ b ∈ (c.header v).bytes ∨ b = fb ∨ b = off ∨ b ∈ text := by
  simp [lcdPayload, headerROM]

theorem rowByte_toNat (c : Config) (row : Byte) (hw : c.wf = true) (h : row.toNat < c.lenC4Rows) :
    (rowByte row).toNat = 0x30 + row.toNat ∧ 0x30 + row.toNat ≤ 0x7F := by
  have hd := Config.wf_displays hw
  exact ⟨byteOf_toNat _ (by simp only [Config.c4RowBase]; omega), by omega⟩

end Sys2Proof.Machine
end

