-- ==== Sys2Proof/Laws/Batches.lean ====
section
/-! SUPPORT. The reset's batches: what each of their encoder calls returns under a well-formed configuration, and how a
batch splits into its families. -/

namespace Sys2Proof.Machine

/-- A list of commands that each return one message makes the list of those messages. -/
theorem batchOf_map {α : Type} (c : Config) (l : List α) (f : α → Instr) (g : α → Message)
    (h : ∀ a ∈ l, encoderResult c (f a) = some (.messages [g a])) : batchOf c (l.map f) = l.map g := by
  induction l with
  | nil => rfl
  | cons a l ih =>
    show messagesOf (encoderResult c (f a)) ++ batchOf c (l.map f) = _
    rw [h a (by simp), ih fun b hb => h b (List.mem_cons_of_mem _ hb)]
    rfl

/-- The messages of two lists of commands, one list after the other. -/
theorem batchOf_append (c : Config) (a b : List Instr) : batchOf c (a ++ b) = batchOf c a ++ batchOf c b := by
  simp [batchOf]

theorem encoderResult_led {c : Config} (hw : c.wf = true) {k : Nat} (hk : k < c.lenIDs) {st : Byte}
    (h : st = c.stateOn ∨ st = c.stateOff) :
    encoderResult c (.setLED (byteOf k) st) = some (.messages [.noteOn 0 (byteOf k) st]) := by
  have hc := Config.wf_counts hw
  have e : switchOk c (byteOf k) = true := by rw [switchOk_iff, byteOf_toNat _ (by omega)]; exact hk
  simp only [encoderResult, ledResult, e, (ledStateOk_iff c st).2 h, require_true]
  rfl

theorem encoderResult_fader (c : Config) {k p : Nat} (hk : k < 9) (hp : p ≤ 16382) :
    encoderResult c (.setFaderPos (byteOf k) (BitVec.ofNat 16 p)) =
      some (.messages [.pitchBend (BitVec.ofNat 4 k) ((p : Int) - 8191)]) := by
  have hv : (BitVec.ofNat 16 p).toNat = p := by
    rw [BitVec.toNat_ofNat]
    exact Nat.mod_eq_of_lt (by omega)
  have e : channelOk (byteOf k) = true := by rw [channelOk_iff, byteOf_toNat _ (by omega)]; omega
  have e' : positionOk (BitVec.ofNat 16 p) = true := by rw [positionOk_iff, hv]; exact hp
  simp only [encoderResult, faderResult, e, e', require_true, channelBus, byteOf_toNat k (by omega), bendOf, hv]
  rfl

theorem encoderResult_vpot (c : Config) {k : Nat} (hk : k < 9) {mode led : Byte}
    (h : mode.toNat + led.toNat ≤ 0xFF) :
    encoderResult c (.setVPot (byteOf k) mode led) = some (.messages [.cc 0 (byteOf (0x30 + k)) (mode + led)]) := by
  have e : channelOk (byteOf k) = true := by rw [channelOk_iff, byteOf_toNat _ (by omega)]; omega
  have e' : byteOf (vpotSum mode led) = mode + led := by
    apply BitVec.eq_of_toNat_eq
    simp [byteOf, vpotSum]
  simp only [encoderResult, vpotResult, e, (vpotSumOk_iff mode led).2 h, require_true, e', byteOf_toNat k (by omega)]
  rfl

theorem encoderResult_meter (c : Config) {k : Nat} (hk : k < 9) {level : Byte} (h : level.toNat < 16) :
    encoderResult c (.setMeter (byteOf k) level) =
      some (.messages [.chanPressure 0 (byteOf (k * 2 ^ 4 + level.toNat))]) := by
  have e : channelOk (byteOf k) = true := by rw [channelOk_iff, byteOf_toNat _ (by omega)]; omega
  simp only [encoderResult, meterResult, e, (levelOk_iff level).2 h, require_true, byteOf_toNat k (by omega)]
  rfl

theorem encoderResult_digit {c : Config} (hw : c.wf = true) {k : Nat} (hk : k < c.lenDigits) (v : Byte) :
    encoderResult c (.setDigit (byteOf k) v) = some (.messages [.cc 15 (byteOf (0x40 + k)) (normChar v)]) := by
  have hc := Config.wf_counts hw
  have e : digitOk c (byteOf k) = true := by rw [digitOk_iff, byteOf_toNat _ (by omega)]; exact hk
  simp only [encoderResult, digitResult, e, require_true, byteOf_toNat k (by omega)]
  rfl

theorem encoderResult_blankLine {c : Config} (hw : c.wf = true) {k : Nat} (hk : k < c.lenLines) :
    encoderResult c (blankLine c k) = some (.messages [.sysEx (c.headerStd.bytes ++
      [c.lcdFrameByte, byteOf (k * c.lineWidth)] ++ List.replicate c.lineWidth 0x20)]) := by
  have hc := Config.wf_counts hw
  have hs := (Config.wf_displays hw).2.1 .std
  simp only [Config.lcdSize] at hs
  have hl : (k + 1) * c.lineWidth ≤ c.lenLines * c.lineWidth := Nat.mul_le_mul_right _ hk
  rw [Nat.add_mul] at hl
  have ho : (byteOf (k * c.lineWidth)).toNat = k * c.lineWidth := byteOf_toNat _ (by omega)
  simp only [encoderResult, blankLine, lcdResult_eq, List.length_replicate, ho]
  rw [if_pos (by omega), if_pos (by omega), if_pos (by intro b hb; rw [List.eq_of_mem_replicate hb]; decide)]
  rfl

/-- `FamilyOrder` is a permutation of the six families. -/
theorem familyOrder_perm {c : Config} (hw : c.wf = true) : c.familyOrder.Perm Config.allFamilies := by
  have h := (Config.wf_parts hw).2.2.2.2.1
  simp only [Config.orderOk, Bool.and_eq_true, beq_iff_eq, List.all_eq_true, List.contains_iff_mem] at h
  have hn : Config.allFamilies.Nodup := by decide
  exact ((List.subperm_of_subset hn h.2).perm_of_length_le (by simp [h.1, Config.allFamilies])).symm

end Sys2Proof.Machine
end

