-- ==== Sys2Proof/Laws/Decode.lean ====
section
/-! SUPPORT. The small facts of the frame codec: opcodes, positions, counted texts, lengths. -/

namespace Sys2Proof

@[simp] theorem opcodeOf_opcodeByte (o : Opcode) : opcodeOf (opcodeByte o) = some o := by cases o <;> rfl

/-- The bytes with an opcode are exactly the opcodes' bytes. -/
theorem opcodeOf_eq_some (op : Byte) (o : Opcode) : opcodeOf op = some o ↔ op = opcodeByte o := by
  constructor
  · revert op o
    have key : ∀ op : Byte, ∀ o ∈ opcodeOf op, op = opcodeByte o := by decide
    exact fun op o h => key op o h
  · rintro rfl
    exact opcodeOf_opcodeByte o

/-- The reserved bytes of 30_encoding R66 are those below 0x01 and from 0x0E up. -/
theorem opcodeOf_eq_none (op : Byte) : opcodeOf op = none ↔ op.toNat = 0 ∨ 0x0E ≤ op.toNat := by
  revert op; decide

theorem positionOf_toNat (lo hi : Byte) : (positionOf lo hi).toNat = lo.toNat + 256 * hi.toNat := by
  have h1 := lo.isLt
  have h2 := hi.isLt
  simp only [positionOf, BitVec.truncate_eq_setWidth, BitVec.toNat_or, BitVec.toNat_setWidth, BitVec.toNat_shiftLeft, Nat.shiftLeft_eq]
  rw [Nat.mod_eq_of_lt (by omega : lo.toNat < 2 ^ 16), Nat.mod_eq_of_lt (by omega : hi.toNat < 2 ^ 16),
    Nat.mod_eq_of_lt (by omega : hi.toNat * 2 ^ 8 < 2 ^ 16), Nat.or_comm, Nat.mul_comm,
    ← Nat.two_pow_add_eq_or_of_lt h1]
  omega

@[simp] theorem positionOf_low_high (pos : Word16) : positionOf (positionLow pos) (positionHigh pos) = pos := by
  apply BitVec.eq_of_toNat_eq
  have h := pos.isLt
  simp only [positionOf_toNat, positionLow, positionHigh, BitVec.toNat_ofNat]
  omega

@[simp] theorem positionLow_positionOf (lo hi : Byte) : positionLow (positionOf lo hi) = lo := by
  apply BitVec.eq_of_toNat_eq
  have h1 := lo.isLt
  simp only [positionLow, positionOf_toNat, BitVec.toNat_ofNat]
  omega

@[simp] theorem positionHigh_positionOf (lo hi : Byte) : positionHigh (positionOf lo hi) = hi := by
  apply BitVec.eq_of_toNat_eq
  have h1 := lo.isLt
  have h2 := hi.isLt
  simp only [positionHigh, positionOf_toNat, BitVec.toNat_ofNat]
  omega

theorem readText_writeText (text : Text) (h : Text.wf text = true) : readText (writeText text) = some text := by
  have h' : text.length ≤ 255 := by simpa [Text.wf] using h
  simp [readText, writeText, Nat.mod_eq_of_lt (by omega : text.length < 256)]

/-- A counted text is read exactly when its length byte counts it. -/
theorem readText_eq_some (counted : List Byte) (text : Text) :
    readText counted = some text ↔ Text.wf text = true ∧ counted = writeText text := by
  constructor
  · cases counted with
    | nil => simp [readText]
    | cons n rest =>
      simp only [readText]
      split
      · rename_i h
        intro e
        injection e with e
        subst e
        have := n.isLt
        refine ⟨by simp [Text.wf]; omega, ?_⟩
        simp [writeText, h]
      · simp
  · rintro ⟨h, rfl⟩
    exact readText_writeText text h

/-- What a decoded frame is: its opcode's byte, then operand bytes that the opcode's format reads. -/
theorem decode_eq_ok (f : Frame) (i : Instr) :
    decode f = .ok i ↔ ∃ o operands, f = opcodeByte o :: operands ∧ readOperands o operands = some i := by
  cases f with
  | nil => simp [decode]
  | cons op operands =>
    constructor
    · intro h
      simp only [decode] at h
      split at h
      · cases h
      · rename_i o ho
        split at h
        · cases h
        · rename_i j hj
          injection h with h
          subst h
          exact ⟨o, operands, by rw [(opcodeOf_eq_some op o).1 ho], hj⟩
    · rintro ⟨o, ops, e, h⟩
      injection e with e1 e2
      subst e1 e2
      simp [decode, h]

end Sys2Proof
end

