-- ==== Sys2Proof/Laws/PerInstr.lean ====
section
/-! SUPPORT. Facts about each command as syntax, one lemma a constructor. -/

namespace Sys2Proof.Laws.EncodeShape

open Sys2Proof

/-- The frame of a well-formed command begins with an opcode of the table, and its length is the one that the opcode's
format gives it (30_encoding R61, R62, R65). -/
def Statement (i : Instr) : Prop :=
  i.wf = true → ∃ o, opcodeOf ((encode i).headD 0) = some o ∧
    frameLength (formatOf o) (encode i) = some (encode i).length

theorem setLED (sw state : Byte) : Statement (.setLED sw state) := fun _ => ⟨.setLED, rfl, rfl⟩

theorem sendOff (sw : Byte) : Statement (.sendOff sw) := fun _ => ⟨.sendOff, rfl, rfl⟩

theorem sendOffVelocity (sw vel : Byte) : Statement (.sendOffVelocity sw vel) :=
  fun _ => ⟨.sendOffVelocity, rfl, rfl⟩

theorem setFaderPos (ch : Byte) (pos : Word16) : Statement (.setFaderPos ch pos) :=
  fun _ => ⟨.setFaderPos, rfl, rfl⟩

theorem setVPot (ch mode led : Byte) : Statement (.setVPot ch mode led) := fun _ => ⟨.setVPot, rfl, rfl⟩

theorem setMeter (ch level : Byte) : Statement (.setMeter ch level) := fun _ => ⟨.setMeter, rfl, rfl⟩

theorem setDigit (digit char : Byte) : Statement (.setDigit digit char) := fun _ => ⟨.setDigit, rfl, rfl⟩

/-- The length a counted text adds to its format's fixed part. -/
theorem counted_length (text : Text) (h : Text.wf text = true) : text.length % 256 = text.length := by
  have : text.length ≤ 255 := by simpa [Text.wf] using h
  omega

theorem setTimeDisplay (text : Text) : Statement (.setTimeDisplay text) := fun h =>
  ⟨.setTimeDisplay, rfl, by
    simp [frameLength, formatOf, carriesText, fixedLength, encode, writeText, counted_length text h]; omega⟩

theorem setLCD (offset : Byte) (text : Text) : Statement (.setLCD offset text) := fun h =>
  ⟨.setLCD, rfl, by
    simp [frameLength, formatOf, carriesText, fixedLength, encode, writeText, counted_length text h]; omega⟩

theorem setLCDXT (offset : Byte) (text : Text) : Statement (.setLCDXT offset text) := fun h =>
  ⟨.setLCDXT, rfl, by
    simp [frameLength, formatOf, carriesText, fixedLength, encode, writeText, counted_length text h]; omega⟩

theorem setLCDC4 (offset row : Byte) (text : Text) : Statement (.setLCDC4 offset row text) := fun h =>
  ⟨.setLCDC4, rfl, by
    simp [frameLength, formatOf, carriesText, fixedLength, encode, writeText, counted_length text h]; omega⟩

theorem headerFor (variant : Byte) : Statement (.headerFor variant) := fun _ => ⟨.headerFor, rfl, rfl⟩

theorem reset : Statement .reset := fun _ => ⟨.reset, rfl, rfl⟩

end Sys2Proof.Laws.EncodeShape
end

