-- ==== Sys2Proof/Laws/Sequencer.lean ====
section
/-! SUPPORT. The sequencer and the step: what one turn, one input and one step can do, said once. -/

namespace Sys2Proof.Machine

/-- What leaves the batch of the present phase. -/
def endBatch (s : State) : State :=
  match s.rsPhase with
  | .phaseA => endPhaseA s
  | .phaseB => endPhaseB s
  | .idle => s
  | .settle => s

/-- The transitions of 44_reset_sequencer that need no transport answer, each with its guard. -/
theorem sequencerTurn_cases (s : State) :
    (s.rsPhase = .idle ∧ 0 < s.held ∧ sequencerTurn s = startReset { s with held := s.held - 1 }) ∨
    (∃ m, s.rsPending = false ∧ (currentBatch s)[s.rsIndex]? = some m ∧ sequencerTurn s = offerSend m s) ∨
    (s.rsPhase = .phaseA ∧ s.rsPending = false ∧ s.rsIndex = (batchA s.cfg).length ∧
      sequencerTurn s = endPhaseA s) ∨
    (s.rsPhase = .settle ∧ s.rsSettleStart + s.cfg.settleTicks ≤ s.clock ∧ sequencerTurn s = endSettle s) ∨
    (s.rsPhase = .phaseB ∧ s.rsPending = false ∧ s.rsIndex = (batchB s.cfg).length ∧
      sequencerTurn s = endPhaseB s) ∨
    sequencerTurn s = s := by
  unfold sequencerTurn advanceBatch
  cases hp : s.rsPhase with
  | idle =>
    by_cases hh : 0 < s.held <;> simp [hh]
  | settle =>
    by_cases hs : s.rsSettleStart + s.cfg.settleTicks ≤ s.clock <;> simp [settled, hs]
  | phaseA =>
    cases hq : s.rsPending with
    | true => simp
    | false =>
      cases hm : (currentBatch s)[s.rsIndex]? with
      | some m => exact .inr (.inl ⟨m, rfl, rfl, by simp⟩)
      | none => by_cases hi : s.rsIndex = (batchA s.cfg).length <;> simp [currentBatch, hp, hi]
  | phaseB =>
    cases hq : s.rsPending with
    | true => simp
    | false =>
      cases hm : (currentBatch s)[s.rsIndex]? with
      | some m => exact .inr (.inl ⟨m, rfl, rfl, by simp⟩)
      | none => by_cases hi : s.rsIndex = (batchB s.cfg).length <;> simp [currentBatch, hp, hi]

/-! ### What a turn leaves alone -/

@[simp] theorem sequencerTurn_cfg (s : State) : (sequencerTurn s).cfg = s.cfg := by
  rcases sequencerTurn_cases s with ⟨-, -, h⟩ | ⟨m, -, -, h⟩ | ⟨-, -, -, h⟩ | ⟨-, -, h⟩ | ⟨-, -, -, h⟩ | h <;>
    simp [h]

@[simp] theorem sequencerTurn_clock (s : State) : (sequencerTurn s).clock = s.clock := by
  rcases sequencerTurn_cases s with ⟨-, -, h⟩ | ⟨m, -, -, h⟩ | ⟨-, -, -, h⟩ | ⟨-, -, h⟩ | ⟨-, -, -, h⟩ | h <;>
    simp [h]

@[simp] theorem sequencerTurn_abandoned (s : State) : (sequencerTurn s).abandoned = s.abandoned := by
  rcases sequencerTurn_cases s with ⟨-, -, h⟩ | ⟨m, -, -, h⟩ | ⟨-, -, -, h⟩ | ⟨-, -, h⟩ | ⟨-, -, -, h⟩ | h <;>
    simp [h]

@[simp] theorem sequencerTurn_results (s : State) : (sequencerTurn s).results = s.results := by
  rcases sequencerTurn_cases s with ⟨-, -, h⟩ | ⟨m, -, -, h⟩ | ⟨-, -, -, h⟩ | ⟨-, -, h⟩ | ⟨-, -, -, h⟩ | h <;>
    simp [h]

@[simp] theorem sequencerTurn_inputs (s : State) : (sequencerTurn s).inputs = s.inputs := by
  rcases sequencerTurn_cases s with ⟨-, -, h⟩ | ⟨m, -, -, h⟩ | ⟨-, -, -, h⟩ | ⟨-, -, h⟩ | ⟨-, -, -, h⟩ | h <;>
    simp [h]

/-- A turn does not look at the schedule. -/
theorem sequencerTurn_setInputs (s : State) (xs : List Input) :
    sequencerTurn { s with inputs := xs } = { sequencerTurn s with inputs := xs } := by
  obtain ⟨cfg, phase, index, pending, start, result, clock, held, abandoned, results, transport, statuses, inputs⟩ := s
  cases phase with
  | idle => by_cases hh : 0 < held <;> simp only [sequencerTurn, hh, reduceIte] <;> rfl
  | settle =>
    by_cases hs : start + cfg.settleTicks ≤ clock <;>
      simp only [sequencerTurn, settled, hs, decide_true, decide_false, Bool.false_eq_true, reduceIte] <;> rfl
  | phaseA =>
    cases pending with
    | true => rfl
    | false =>
      cases hm : (batchA cfg)[index]? <;>
        simp only [sequencerTurn, advanceBatch, currentBatch, hm, Bool.false_eq_true, reduceIte]
      · by_cases hl : index = (batchA cfg).length <;> simp only [hl, reduceIte] <;> rfl
      · rfl
  | phaseB =>
    cases pending with
    | true => rfl
    | false =>
      cases hm : (batchB cfg)[index]? <;>
        simp only [sequencerTurn, advanceBatch, currentBatch, hm, Bool.false_eq_true, reduceIte]
      · by_cases hl : index = (batchB cfg).length <;> simp only [hl, reduceIte] <;> rfl
      · rfl

/-- A turn does not look at the encoder result port. -/
theorem sequencerTurn_emit (s : State) (r : Result) : sequencerTurn (emit r s) = emit r (sequencerTurn s) := by
  obtain ⟨cfg, phase, index, pending, start, result, clock, held, abandoned, results, transport, statuses, inputs⟩ := s
  cases phase with
  | idle => by_cases hh : 0 < held <;> simp only [emit, sequencerTurn, hh, reduceIte] <;> rfl
  | settle =>
    by_cases hs : start + cfg.settleTicks ≤ clock <;>
      simp only [emit, sequencerTurn, settled, hs, decide_true, decide_false, Bool.false_eq_true, reduceIte] <;> rfl
  | phaseA =>
    cases pending with
    | true => rfl
    | false =>
      cases hm : (batchA cfg)[index]? <;>
        simp only [emit, sequencerTurn, advanceBatch, currentBatch, hm, Bool.false_eq_true, reduceIte]
      · by_cases hl : index = (batchA cfg).length <;> simp only [hl, reduceIte] <;> rfl
      · rfl
  | phaseB =>
    cases pending with
    | true => rfl
    | false =>
      cases hm : (batchB cfg)[index]? <;>
        simp only [emit, sequencerTurn, advanceBatch, currentBatch, hm, Bool.false_eq_true, reduceIte]
      · by_cases hl : index = (batchB cfg).length <;> simp only [hl, reduceIte] <;> rfl
      · rfl

/-- What one input can do when it answers a next state: one case an effect, with its guard. -/
theorem takeInput_cases (x : Input) (s t : State) (h : takeInput x s = .next t) :
    (∃ f r, x = .frame f ∧ t = emit r s) ∨
    (∃ f, x = .frame f ∧ decode f = .ok .reset ∧ s.rsPhase = .idle ∧ t = startReset s) ∨
    (∃ f, x = .frame f ∧ decode f = .ok .reset ∧ s.rsPhase ≠ .idle ∧ t = holdReset s) ∨
    (x = .answer .ok ∧ s.rsPending = true ∧ t = acknowledgeSend s) ∨
    (∃ e, x = .answer (.err e) ∧ s.rsPending = true ∧ t = takeTransportError e s) ∨
    (∃ a, x = .lateAnswer a ∧ 0 < s.abandoned ∧ t = { s with abandoned := s.abandoned - 1 }) ∨
    (∃ d, x = .clock d ∧ t = advanceClock d s) ∨
    (x = .sequencer ∧ t = sequencerTurn s) ∨
    (∃ m, x = .callerSend m ∧ t = onTransport (.callerSent m) s) ∨
    (∃ v, x = .powerOn v ∧ t = powerOnReset v s) := by
  cases x with
  | frame f =>
    rcases acceptFrame_cases f s with ⟨r, e, -⟩ | ⟨hd, hp, e⟩ | ⟨hd, hp, e⟩ <;>
      (simp only [takeInput, e, Host.Outcome.next.injEq] at h; subst h)
    · exact .inl ⟨f, r, rfl, rfl⟩
    · exact .inr (.inl ⟨f, rfl, hd, hp, rfl⟩)
    · exact .inr (.inr (.inl ⟨f, rfl, hd, hp, rfl⟩))
  | answer a =>
    simp only [takeInput, acceptAnswer] at h
    split at h
    · rename_i hp
      simp only [Host.Outcome.next.injEq] at h
      subst h
      cases a <;> simp [takeAnswer, hp]
    · cases h
  | lateAnswer a =>
    simp only [takeInput, ignoreAnswer] at h
    split at h
    · rename_i hp
      simp only [Host.Outcome.next.injEq] at h
      subst h
      simp [hp]
    · cases h
  | clock d => simp [takeInput] at h; subst h; simp
  | sequencer => simp [takeInput] at h; subst h; simp
  | callerSend m => simp [takeInput] at h; subst h; simp
  | powerOn v => simp [takeInput] at h; subst h; simp

/-- A step is one input, or the sequencer's turn when none is left, of a machine whose configuration is well-formed. -/
theorem step_cases (s t : State) (h : step s = .next t) :
    s.cfg.wf = true ∧
    ((s.inputs = [] ∧ t = sequencerTurn s) ∨
     (∃ x rest, s.inputs = x :: rest ∧ takeInput x { s with inputs := rest } = .next t)) := by
  unfold step move at h
  split at h
  · rename_i hw
    refine ⟨hw, ?_⟩
    split at h
    · rename_i he
      simp only [Host.Outcome.next.injEq] at h
      exact .inl ⟨he, h.symm⟩
    · rename_i x rest he
      exact .inr ⟨x, rest, he, h⟩
  · cases h

/-- A step of a well-formed machine takes the next input. -/
theorem step_input (s : State) (x : Input) (rest : List Input) (hw : s.cfg.wf = true) (hi : s.inputs = x :: rest) :
    step s = takeInput x { s with inputs := rest } := by
  simp [step, move, hw, hi]

/-- With no input left, a step of a well-formed machine is the sequencer's turn. -/
theorem step_waiting (s : State) (hw : s.cfg.wf = true) (hi : s.inputs = []) : step s = .next (sequencerTurn s) := by
  simp [step, move, hw, hi]

theorem currentBatch_length_le (s : State) :
    (currentBatch s).length ≤ max (batchA s.cfg).length (batchB s.cfg).length := by
  unfold currentBatch
  cases s.rsPhase <;> simp

/-! ### What the transport port saw -/

@[simp] theorem sequencerActions_nil : sequencerActions [] = [] := rfl

@[simp] theorem sequencerActions_append (a b : List TransportEvent) :
    sequencerActions (a ++ b) = sequencerActions a ++ sequencerActions b := by
  simp [sequencerActions]

@[simp] theorem sequencerActions_offered (t : Nat) (m : Message) :
    sequencerActions [⟨t, .offered m⟩] = [.offered m] := rfl

@[simp] theorem sequencerActions_answered (t : Nat) (a : Answer) :
    sequencerActions [⟨t, .answered a⟩] = [.answered a] := rfl

@[simp] theorem sequencerActions_callerSent (t : Nat) (m : Message) :
    sequencerActions [⟨t, .callerSent m⟩] = [] := rfl

theorem acknowledged_append (a b : List Message) : acknowledged (a ++ b) = acknowledged a ++ acknowledged b := by
  simp [acknowledged]

@[simp] theorem acknowledged_nil : acknowledged [] = [] := rfl

/-- One more message acknowledged: an offer and its `ok`. -/
theorem acknowledged_take_succ (ms : List Message) (k : Nat) (m : Message) (h : ms[k]? = some m) :
    acknowledged (ms.take (k + 1)) = acknowledged (ms.take k) ++ [.offered m, .answered .ok] := by
  rw [List.take_add_one, h, acknowledged_append]
  simp [acknowledged]

end Sys2Proof.Machine
end

