-- ==== Sys2Proof/Laws/Wire.lean ====
section
/-! SUPPORT. One lemma a record: its serialization and when it has none. -/

namespace Sys2Proof.Machine

theorem serialize_noteOff (ch : Bus) (a b : Byte) : serialize (.noteOff ch a b) =
    if a.toNat ≤ 0x7F ∧ b.toNat ≤ 0x7F then some [statusByte 0x80 ch, a, b] else none := by
  simp only [serialize, Bool.and_eq_true, Config.dataByte_iff]

theorem serialize_noteOn (ch : Bus) (a b : Byte) : serialize (.noteOn ch a b) =
    if a.toNat ≤ 0x7F ∧ b.toNat ≤ 0x7F then some [statusByte 0x90 ch, a, b] else none := by
  simp only [serialize, Bool.and_eq_true, Config.dataByte_iff]

theorem serialize_cc (ch : Bus) (a b : Byte) : serialize (.cc ch a b) =
    if a.toNat ≤ 0x7F ∧ b.toNat ≤ 0x7F then some [statusByte 0xB0 ch, a, b] else none := by
  simp only [serialize, Bool.and_eq_true, Config.dataByte_iff]

theorem serialize_chanPressure (ch : Bus) (a : Byte) : serialize (.chanPressure ch a) =
    if a.toNat ≤ 0x7F then some [statusByte 0xD0 ch, a] else none := by
  simp only [serialize, Config.dataByte_iff]

theorem serialize_pitchBend (ch : Bus) (bend : Int) : serialize (.pitchBend ch bend) =
    if -8192 ≤ bend ∧ bend ≤ 8191 then
      some [statusByte 0xE0 ch, byteOf ((bend + 8192).toNat % 128), byteOf ((bend + 8192).toNat / 128 % 128)]
    else none := by
  simp only [serialize, bendOk, Bool.and_eq_true, decide_eq_true_eq]
  rfl

theorem serialize_sysEx (payload : List Byte) : serialize (.sysEx payload) = some ([0xF0] ++ payload ++ [0xF7]) := rfl

/-- A record with a reference serialization is sent as that. -/
theorem wireBytes_of_serialize {m : Message} {bytes : List Byte} (h : serialize m = some bytes) : wireBytes m = bytes := by
  rw [wireBytes, h, Option.getD_some]

@[simp] theorem wireStream_nil : wireStream [] = [] := rfl

@[simp] theorem wireStream_cons (m : Message) (ms : List Message) : wireStream (m :: ms) = wireBytes m ++ wireStream ms :=
  List.flatMap_cons

@[simp] theorem wireStream_append (a b : List Message) : wireStream (a ++ b) = wireStream a ++ wireStream b :=
  List.flatMap_append

end Sys2Proof.Machine
end

