-- ==== Sys2Proof/Tests/Slice0.lean ====
section
/-! SUPPORT. The model's own tests. Expected results are the spec's: frames from 30_encoding R61 and R62, results and wire
bytes from the vectors and programs of 95_test_vectors; then, for every statement with hypotheses, a witness that meets
them. -/

namespace Sys2Proof.Tests

open Sys2Proof Sys2Proof.Machine

/-- The test configuration `T` of 95_test_vectors part 0. -/
def testConfig : Config := { Config.default with lenLines := 1, lineWidth := 2 }

/-- Power-on under `T`. -/
def start : State := State.powerOn testConfig

/-- `start` with a schedule. -/
def scheduled (xs : List Input) : State := { start with inputs := xs }

/-- The next state, where there is one. -/
def next? : Outcome → Option State
  | .next s => some s
  | .fault _ => none
  | .refused _ => none

/-- The result that one step gives for a frame. -/
def answerTo (f : Frame) : Option Result :=
  (next? (step (scheduled [.frame f]))).bind fun s => s.results.head?

/-- The wire bytes of the messages a frame is answered with, a refused serialization as `none`. -/
def wireOf (f : Frame) : Option (List (Option (List Byte))) :=
  match answerTo f with
  | some (.messages ms) => some (ms.map serialize)
  | some (.bytes _) => none
  | some (.error _) => none
  | none => none

/-! ### Ill-formed terms (30_encoding R64) -/

/-- A text one byte too long for its length byte. -/
def longText : Text := List.replicate 256 0x41

theorem longText_refused : Text.wf longText = false :=
  decide_eq_false (by rw [longText, List.length_replicate]; omega)

theorem test_wf_setTimeDisplay : Instr.wf (.setTimeDisplay longText) = false := longText_refused
theorem test_wf_setLCD : Instr.wf (.setLCD 0 longText) = false := longText_refused
theorem test_wf_setLCDXT : Instr.wf (.setLCDXT 0 longText) = false := longText_refused
theorem test_wf_setLCDC4 : Instr.wf (.setLCDC4 0 0 longText) = false := longText_refused
theorem test_wf_longest (n : Nat) (h : n = 255) : Instr.wf (.setTimeDisplay (List.replicate n 0x41)) = true :=
  decide_eq_true (by rw [List.length_replicate, h])

/-! ### Ill-formed configurations (00_scope R8) -/

theorem test_config_default : Config.default.wf = true ∧ testConfig.wf = true := by decide
theorem test_config_counts :
    { testConfig with lenIDs := 0 }.wf = false ∧ { testConfig with lenIDs := 129 }.wf = false ∧
    { testConfig with lenDigits := 0 }.wf = false ∧ { testConfig with lenDigits := 65 }.wf = false ∧
    { testConfig with lenLines := 57 }.wf = false ∧ { testConfig with lineWidth := 0 }.wf = false := by decide
theorem test_config_headers :
    { testConfig with headerStd := ⟨0x00, 0x80, 0x66, 0x14⟩ }.wf = false ∧
    { testConfig with headerXT := testConfig.headerC4 }.wf = false := by decide
theorem test_config_displays :
    { testConfig with lcdFrameByte := 0x80 }.wf = false ∧ { testConfig with lcdSizeXT := 129 }.wf = false ∧
    { testConfig with lcdSizeC4 := 0 }.wf = false ∧ { testConfig with lenC4Rows := 0x51 }.wf = false := by decide
theorem test_config_named :
    { testConfig with stateOff := 0x7F }.wf = false ∧ { testConfig with meterClipOff := 0x0E }.wf = false ∧
    { testConfig with meterClipping := 0x10 }.wf = false ∧ { testConfig with vpotMode3 := 0xC0 }.wf = false := by
  decide
theorem test_config_order :
    { testConfig with familyOrder := [.led, .led, .vpot, .meter, .digit, .lcd] }.wf = false ∧
    { testConfig with familyOrder := [.lcd, .digit, .meter, .vpot, .fader, .led] }.wf = true ∧
    { testConfig with clockTicksPerMs := 0 }.wf = false := by decide

/-! ### Decoding (30_encoding R61 to R66): words written out bit by bit, one family each, and the vectors V-FRM -/

theorem test_decode_channelVoice :
    decode [0b00000001, 0b00010000, 0b01111111] = .ok (.setLED 0x10 0x7F) ∧
    decode [0b00000100, 0b00001000, 0b11111110, 0b00111111] = .ok (.setFaderPos 8 16382) ∧
    decode [0b00000100, 0b00000000, 0b00111111, 0b11111110] = .ok (.setFaderPos 0 65087) := ⟨rfl, rfl, rfl⟩
theorem test_decode_lcd :
    decode [0b00001011, 0b00110111, 0b00000011, 0b00000001, 0b01111010] = .ok (.setLCDC4 55 3 [0x7A]) := rfl
theorem test_decode_header : decode [0b00001100, 0b00000010] = .ok (.headerFor 2) := rfl
theorem test_decode_reset : decode [0b00001101] = .ok .reset := rfl
theorem test_frame_errors :
    [[], [0x00], [0x0E, 0x01, 0x02], [0xFF], [0x01, 0x00], [0x01, 0x00, 0x7F, 0x00], [0x08, 0x03, 0x41, 0x42], [0x08],
      [0x0D, 0x00], [0x0B, 0x00, 0x00, 0x04, 0x48, 0x49]].map answerTo =
    [.frame, .illegalCmd, .illegalCmd, .illegalCmd, .frame, .frame, .frame, .frame, .frame, .frame].map
      fun e => some (.error e) := by decide
/-- Every row of the opcode table, the table's byte alone: the operand bytes are zeros (log 20). -/
theorem test_tableWords : (List.range 15).map (decodeTableWord 8) =
    [none, some (.setLED 0 0), some (.sendOff 0), some (.sendOffVelocity 0 0), some (.setFaderPos 0 0),
      some (.setVPot 0 0 0), some (.setMeter 0 0), some (.setDigit 0 0), some (.setTimeDisplay []),
      some (.setLCD 0 []), some (.setLCDXT 0 []), some (.setLCDC4 0 0 []), some (.headerFor 0), some .reset, none] := by
  decide
theorem test_tableOperands : decodeTableWord 24 0x7F1001 = some (.setLED 0x10 0x7F) := by decide
theorem test_withFetchWord :
    (next? (step (State.reset.withFetchWord 24 0x7F0101))).map (·.results) =
      some [.messages [.noteOn 0 1 0x7F]] := by decide

/-! ### The commands (95_test_vectors part 2) -/

theorem test_headerFor :
    [[0x0C, 0x00], [0x0C, 0x01], [0x0C, 0x02], [0x0C, 0x03], [0x0C, 0xFF]].map answerTo =
    [some (.bytes [0x00, 0x00, 0x66, 0x14]), some (.bytes [0x00, 0x00, 0x66, 0x15]),
      some (.bytes [0x00, 0x00, 0x66, 0x17]), some (.error .variant), some (.error .variant)] := by decide
theorem test_setLED :
    wireOf [0x01, 0x00, 0x7F] = some [some [0x90, 0x00, 0x7F]] ∧
    wireOf [0x01, 0x01, 0x00] = some [some [0x90, 0x01, 0x00]] ∧
    answerTo [0x01, 0x00, 0x01] = some (.error .state) ∧ answerTo [0x01, 0x02, 0x01] = some (.error .switch) := by
  decide
theorem test_sendOff :
    wireOf [0x02, 0x01] = some [some [0x80, 0x01, 0x00]] ∧ answerTo [0x02, 0x02] = some (.error .switch) := by decide
theorem test_sendOffVelocity :
    wireOf [0x03, 0x01, 0x40] = some [some [0x80, 0x01, 0x40]] ∧
    answerTo [0x03, 0x00, 0x80] = some (.messages [.noteOff 0 0 0x80]) ∧ wireOf [0x03, 0x00, 0x80] = some [none] ∧
    answerTo [0x03, 0x02, 0x00] = some (.error .switch) := by decide
theorem test_setFaderPos :
    wireOf [0x04, 0x00, 0xFE, 0x3F] = some [some [0xE0, 0x7F, 0x7F]] ∧
    wireOf [0x04, 0x07, 0x00, 0x00] = some [some [0xE7, 0x01, 0x00]] ∧
    wireOf [0x04, 0x08, 0xFE, 0x3F] = some [some [0xE8, 0x7F, 0x7F]] ∧
    wireOf [0x04, 0x00, 0xFE, 0x1F] = some [some [0xE0, 0x7F, 0x3F]] := by decide
theorem test_setFaderPos_errors :
    answerTo [0x04, 0x00, 0xFF, 0x3F] = some (.error .position) ∧
    answerTo [0x04, 0x09, 0xFF, 0xFF] = some (.error .channel) := by decide
theorem test_setVPot :
    wireOf [0x05, 0x08, 0x01, 0x02] = some [some [0xB0, 0x38, 0x03]] ∧
    answerTo [0x05, 0x00, 0x7F, 0x80] = some (.messages [.cc 0 0x30 0xFF]) ∧
    wireOf [0x05, 0x00, 0x40, 0x40] = some [none] := by decide
theorem test_setVPot_errors :
    answerTo [0x05, 0x00, 0x80, 0x80] = some (.error .vpotSum) ∧
    answerTo [0x05, 0x09, 0xFF, 0xFF] = some (.error .channel) := by decide
theorem test_setMeter :
    wireOf [0x06, 0x05, 0x03] = some [some [0xD0, 0x53]] ∧ wireOf [0x06, 0x07, 0x0F] = some [some [0xD0, 0x7F]] ∧
    answerTo [0x06, 0x08, 0x00] = some (.messages [.chanPressure 0 0x80]) ∧
    wireOf [0x06, 0x08, 0x00] = some [none] := by decide
theorem test_setMeter_errors :
    answerTo [0x06, 0x00, 0x10] = some (.error .level) ∧ answerTo [0x06, 0x09, 0x10] = some (.error .channel) := by
  decide
theorem test_setDigit :
    [0x40, 0x60, 0x3F, 0x61, 0x80, 0xA0, 0x7F].map (fun v => wireOf [0x07, 0x00, v]) =
      [0x00, 0x20, 0x3F, 0x61, 0x40, 0x60, 0x7F].map fun b => some [some [0xBF, 0x40, b]] := by decide
theorem test_setDigit_edges :
    answerTo [0x07, 0x00, 0xA1] = some (.messages [.cc 15 0x40 0xA1]) ∧ wireOf [0x07, 0x00, 0xA1] = some [none] ∧
    answerTo [0x07, 0x02, 0x20] = some (.error .digit) := by decide
theorem test_setTimeDisplay :
    wireOf [0x08, 0x03, 0x61, 0x62, 0x63] =
      some [some [0xBF, 0x40, 0x03], some [0xBF, 0x41, 0x02], some [0xBF, 0x42, 0x01]] ∧
    answerTo [0x08, 0x00] = some (.messages []) ∧ wireOf [0x08, 0x01, 0x7B] = some [some [0xBF, 0x40, 0x7B]] := by
  decide
theorem test_setTimeDisplay_truncates :
    answerTo ([0x08, 0x0B] ++ [0x30, 0x31, 0x32, 0x33, 0x34, 0x35, 0x36, 0x37, 0x38, 0x39, 0x58]) =
      some (.messages [.cc 15 0x40 0x39, .cc 15 0x41 0x38, .cc 15 0x42 0x37, .cc 15 0x43 0x36, .cc 15 0x44 0x35,
        .cc 15 0x45 0x34, .cc 15 0x46 0x33, .cc 15 0x47 0x32, .cc 15 0x48 0x31, .cc 15 0x49 0x30]) := by decide
theorem test_setLCD :
    wireOf [0x09, 0x00, 0x02, 0x48, 0x49] = some [some [0xF0, 0x00, 0x00, 0x66, 0x14, 0x12, 0x00, 0x48, 0x49, 0xF7]] ∧
    wireOf [0x09, 0x6F, 0x01, 0x41] = some [some [0xF0, 0x00, 0x00, 0x66, 0x14, 0x12, 0x6F, 0x41, 0xF7]] ∧
    wireOf [0x09, 0x00, 0x00] = some [some [0xF0, 0x00, 0x00, 0x66, 0x14, 0x12, 0x00, 0xF7]] := by decide
theorem test_setLCD_errors :
    answerTo [0x09, 0x70, 0x00] = some (.error .lcdRange) ∧ answerTo [0x09, 0x00, 0x01, 0x80] = some (.error .textChar) ∧
    answerTo [0x09, 0x6F, 0x02, 0x41, 0x80] = some (.error .lcdRange) := by decide
theorem test_setLCDXT :
    wireOf [0x0A, 0x00, 0x02, 0x48, 0x49] = some [some [0xF0, 0x00, 0x00, 0x66, 0x15, 0x12, 0x00, 0x48, 0x49, 0xF7]] ∧
    answerTo [0x0A, 0x70, 0x01, 0x41] = some (.error .lcdRange) := by decide
theorem test_setLCDC4 :
    wireOf [0x0B, 0x37, 0x03, 0x01, 0x7A] = some [some [0xF0, 0x00, 0x00, 0x66, 0x17, 0x33, 0x37, 0x7A, 0xF7]] := by
  decide
theorem test_setLCDC4_errors :
    answerTo [0x0B, 0x80, 0x09, 0x00] = some (.error .lcdRange) ∧
    answerTo [0x0B, 0x00, 0x09, 0x01, 0x80] = some (.error .row) ∧
    answerTo [0x0B, 0x36, 0x00, 0x03, 0x41, 0x42, 0x43] = some (.error .lcdRange) := by decide
theorem test_reset :
    (next? (step (scheduled [.frame [0x0D]]))).map (fun s => (s.rsPhase, s.rsIndex, s.rsPending, s.rsResult)) =
      some (.phaseA, 0, false, .none) := by decide

/-- The error codes of 60_exceptions R201. -/
theorem test_errorCodes :
    [DomainError.illegalCmd, .frame, .switch, .state, .channel, .position, .vpotSum, .level, .digit, .lcdRange,
      .textChar, .row, .variant].map DomainError.code =
    [0x01, 0x02, 0x03, 0x04, 0x05, 0x06, 0x07, 0x08, 0x09, 0x0A, 0x0B, 0x0C, 0x0D] ∧
    statusCode (.transportErr 7) = some 0x10 := by decide

/-! ### The batches of program P3, in wire bytes -/

theorem test_batchA : (batchA testConfig).map serialize =
    ([[0x90, 0x00, 0x7F], [0x90, 0x01, 0x7F]] ++
     [[0xE0, 0x7F, 0x7F], [0xE1, 0x7F, 0x7F], [0xE2, 0x7F, 0x7F], [0xE3, 0x7F, 0x7F], [0xE4, 0x7F, 0x7F],
      [0xE5, 0x7F, 0x7F], [0xE6, 0x7F, 0x7F], [0xE7, 0x7F, 0x7F], [0xE8, 0x7F, 0x7F]] ++
     [[0xB0, 0x30, 0x70], [0xB0, 0x31, 0x70], [0xB0, 0x32, 0x70], [0xB0, 0x33, 0x70], [0xB0, 0x34, 0x70],
      [0xB0, 0x35, 0x70], [0xB0, 0x36, 0x70], [0xB0, 0x37, 0x70]] ++
     [[0xD0, 0x0E], [0xD0, 0x1E], [0xD0, 0x2E], [0xD0, 0x3E], [0xD0, 0x4E], [0xD0, 0x5E], [0xD0, 0x6E], [0xD0, 0x7E]] ++
     [[0xBF, 0x40, 0x60], [0xBF, 0x41, 0x60]] ++
     [[0xF0, 0x00, 0x00, 0x66, 0x14, 0x12, 0x00, 0x20, 0x20, 0xF7]] : List (List Byte)).map some := by decide

theorem test_batchB : (batchB testConfig).map serialize =
    ([[0x90, 0x00, 0x00], [0x90, 0x01, 0x00]] ++
     [[0xE0, 0x01, 0x00], [0xE1, 0x01, 0x00], [0xE2, 0x01, 0x00], [0xE3, 0x01, 0x00], [0xE4, 0x01, 0x00],
      [0xE5, 0x01, 0x00], [0xE6, 0x01, 0x00], [0xE7, 0x01, 0x00], [0xE8, 0x01, 0x00]] ++
     [[0xB0, 0x30, 0x00], [0xB0, 0x31, 0x00], [0xB0, 0x32, 0x00], [0xB0, 0x33, 0x00], [0xB0, 0x34, 0x00],
      [0xB0, 0x35, 0x00], [0xB0, 0x36, 0x00], [0xB0, 0x37, 0x00]] ++
     [[0xD0, 0x0F], [0xD0, 0x00], [0xD0, 0x1F], [0xD0, 0x10], [0xD0, 0x2F], [0xD0, 0x20], [0xD0, 0x3F], [0xD0, 0x30]] ++
     [[0xD0, 0x4F], [0xD0, 0x40], [0xD0, 0x5F], [0xD0, 0x50], [0xD0, 0x6F], [0xD0, 0x60], [0xD0, 0x7F], [0xD0, 0x70]] ++
     [[0xBF, 0x40, 0x20], [0xBF, 0x41, 0x20]] ++
     [[0xF0, 0x00, 0x00, 0x66, 0x14, 0x12, 0x00, 0x20, 0x20, 0xF7]] : List (List Byte)).map some := by decide

/-! ### The assembler (30_encoding R68; the lines of programs P1 and P2) -/

theorem test_assemble_operands :
    assembleFrame testConfig "SetLED 1, StateOn".toList = some [0x01, 0x01, 0x7F] ∧
    assembleFrame testConfig "SetFaderPos CH2, 8192".toList = some [0x04, 0x01, 0x00, 0x20] ∧
    assembleFrame testConfig "SetVPot CH8, VPotMode3, VPotLEDCenter".toList = some [0x05, 0x07, 0x30, 0x40] ∧
    assembleFrame testConfig "SetMeter MASTER, ClipOff".toList = some [0x06, 0x08, 0x0F] ∧
    assembleFrame testConfig "SendOffVelocity 1, 0x01".toList = some [0x03, 0x01, 0x01] := by decide
theorem test_assemble_texts :
    assembleFrame testConfig "HeaderFor C4".toList = some [0x0C, 0x02] ∧
    assembleFrame testConfig "SetTimeDisplay \"01:23\"".toList = some [0x08, 0x05, 0x30, 0x31, 0x3A, 0x32, 0x33] ∧
    assembleFrame testConfig "SetLCDC4 10, 2, \"ok\"".toList = some [0x0B, 0x0A, 0x02, 0x02, 0x6F, 0x6B] := by decide

/-! ### Witnesses: for each statement with hypotheses, inputs that meet them, at the ends of their ranges -/

theorem witness_StepRunsTheDecodedCommand :
    (scheduled [.frame [0x02, 0x01]]).cfg.wf = true ∧
    (scheduled [.frame [0x02, 0x01]]).inputs = .frame [0x02, 0x01] :: [] ∧ decode [0x02, 0x01] = .ok (.sendOff 1) :=
  ⟨by decide, rfl, rfl⟩

theorem witness_IllFormedFramesReturnTheirError :
    testConfig.wf = true ∧ ((0x00 : Byte).toNat = 0 ∨ 0x0E ≤ (0x00 : Byte).toNat) ∧
    ((0x0E : Byte).toNat = 0 ∨ 0x0E ≤ (0x0E : Byte).toNat) ∧
    opcodeOf 0x0D = some .reset ∧ frameLength (formatOf .reset) [0x0D, 0x00] ≠ some 2 ∧
    frameLength (formatOf .reset) [0x0D] = some 1 ∧
    opcodeOf 0x08 = some .setTimeDisplay ∧ frameLength (formatOf .setTimeDisplay) [0x08] ≠ some 1 ∧
    frameLength (formatOf .setTimeDisplay) [0x08, 0x00] = some 2 := by decide

theorem witness_DecodeInvertsEncode :
    Instr.wf (.setFaderPos 0xFF 0xFFFF) = true ∧ Instr.wf (.setTimeDisplay []) = true ∧
    Instr.wf (.setLCDC4 0xFF 0xFF [0xFF]) = true := by decide

theorem witness_DecodedFramesAreCanonical : decode [0x0B, 0xFF, 0xFF, 0x01, 0xFF] = .ok (.setLCDC4 0xFF 0xFF [0xFF]) :=
  rfl

/-- A decimal number, a hexadecimal one in capitals, a symbolic name and a quoted text with a comma and a blank. -/
theorem witness_AssemblerReadsItsLines :
    Writes testConfig ['2', '5', '5'] 255 ∧ Writes testConfig ['0', 'x', 'B', '3'] 0xB3 ∧
    Writes testConfig "VPotLEDCenter".toList 0x40 ∧ Quotes ['"', 'a', ',', ' ', '"'] [0x61, 0x2C, 0x20] ∧
    255 < 256 ∧ 0xB3 < 65536 := by
  refine ⟨.inl ⟨[2, 5, 5], by decide, ?_, rfl⟩, .inr (.inl ⟨['B', '3'], [11, 3], by decide, rfl, ?_, rfl⟩),
    .inr (.inr ⟨"VPotLEDCenter", rfl, by simp [symbolValues, testConfig, Config.default]⟩),
    ⟨['a', ',', ' '], by simp, rfl, by decide⟩, by decide, by decide⟩
  · exact .cons (by decide) (.cons (by decide) (.cons (by decide) .nil))
  · exact .cons (by decide) (.cons (by decide) .nil)

/-- One operand too few, one too many; and a line with a frame. -/
theorem witness_AssemblerReadsItsLines_counts :
    ("SetLED", 2) ∈ operandCounts ∧ OneWord ['1'] ∧ [['1']].length ≠ 2 ∧
    ("Reset", 0) ∈ operandCounts ∧ [['1']].length ≠ 0 ∧ assembleFrame testConfig "Reset".toList = some [0x0D] :=
  ⟨by simp [operandCounts], ⟨by simp, by simp⟩, by decide, by simp [operandCounts], by decide, by decide⟩

theorem witness_SetLEDLightsOneSwitch :
    (1 : Byte).toNat < start.cfg.lenIDs ∧ (0x7F : Byte) = start.cfg.stateOn ∧ (0x00 : Byte) = start.cfg.stateOff ∧
    start.cfg.lenIDs ≤ (2 : Byte).toNat ∧ (0x01 : Byte) ≠ start.cfg.stateOn ∧ (0x01 : Byte) ≠ start.cfg.stateOff := by
  decide

theorem witness_SendOffSendsNoteOffWithVelocityZero :
    (1 : Byte).toNat < start.cfg.lenIDs ∧ start.cfg.lenIDs ≤ (2 : Byte).toNat := by decide

theorem witness_SendOffVelocitySendsNoteOff :
    (1 : Byte).toNat < start.cfg.lenIDs ∧ start.cfg.lenIDs ≤ (2 : Byte).toNat ∧ 0x7F < (0x80 : Byte).toNat := by decide

theorem witness_SetFaderPosBendsByPositionMinusBias :
    (16382 : Word16).toNat = (0xFE : Byte).toNat + 256 * (0x3F : Byte).toNat ∧
    (8 : Byte).toNat ≤ 8 ∧ (16382 : Word16).toNat ≤ 16382 ∧ (0 : Word16).toNat ≤ 16382 ∧
    9 ≤ (9 : Byte).toNat ∧ 16383 ≤ (16383 : Word16).toNat := by decide

theorem witness_FaderBendIsASymmetricBijection : (-8191 : Int) ≤ -8191 ∧ (-8191 : Int) ≤ 8191 ∧ (8191 : Int) ≤ 8191 := by
  decide

theorem witness_SetVPotSumsModeAndLED :
    (8 : Byte).toNat ≤ 8 ∧ (0xFF : Byte).toNat + (0x00 : Byte).toNat ≤ 0xFF ∧
    0x80 ≤ (0x40 : Byte).toNat + (0x40 : Byte).toNat ∧ 9 ≤ (9 : Byte).toNat ∧
    0xFF < (0xFF : Byte).toNat + (0x01 : Byte).toNat := by decide

theorem witness_SetMeterPacksChannelAndLevel :
    (8 : Byte).toNat ≤ 8 ∧ (15 : Byte).toNat < 16 ∧ (8 : Byte).toNat = 8 ∧ 9 ≤ (9 : Byte).toNat ∧
    16 ≤ (16 : Byte).toNat := by decide

theorem witness_SetDigitNormalizesOnce :
    start.cfg.wf = true ∧ (1 : Byte).toNat < start.cfg.lenDigits ∧ start.cfg.lenDigits ≤ (2 : Byte).toNat ∧
    (∀ v ∈ ([0x40, 0x60, 0x80, 0xA0] : List Byte),
      (0x40 ≤ v.toNat ∧ v.toNat ≤ 0x60) ∨ (0x80 ≤ v.toNat ∧ v.toNat ≤ 0xA0)) ∧
    (∀ v ∈ ([0x3F, 0x61, 0x7F, 0xA1] : List Byte),
      ¬((0x40 ≤ v.toNat ∧ v.toNat ≤ 0x60) ∨ (0x80 ≤ v.toNat ∧ v.toNat ≤ 0xA0))) ∧
    0x7F < (0xA1 : Byte).toNat := by decide

theorem witness_DigitShadowRangesDiffer :
    (1 : Byte).toNat < start.cfg.lenDigits ∧ 0x40 ≤ (0x60 : Byte).toNat ∧ (0x60 : Byte).toNat ≤ 0x60 ∧
    0x80 ≤ (0xA0 : Byte).toNat ∧ (0xA0 : Byte).toNat ≤ 0xA0 := by decide

theorem witness_SetTimeDisplayWritesRightToLeft :
    ([0x31, 0x3A] : Text).length ≤ 255 ∧ 1 < min 10 ([0x31, 0x3A] : Text).length ∧
    ([0x31, 0x3A] : Text)[min 10 2 - 1 - 1]? = some (0x31 : Byte) ∧
    0x61 ≤ (0x61 : Byte).toNat ∧ (0x7A : Byte).toNat ≤ 0x7A ∧ (0x60 : Byte).toNat ≤ 0x60 ∧
    0x7B ≤ (0x7B : Byte).toNat := by decide

theorem witness_SetLCDWritesTheStandardDisplay :
    (111 : Byte).toNat < start.cfg.lcdSizeStd ∧ (111 : Byte).toNat + ([0x7F] : Text).length ≤ start.cfg.lcdSizeStd ∧
    (∀ b ∈ ([0x7F] : Text), b.toNat ≤ 0x7F) ∧ (∃ b ∈ ([0x80] : Text), 0x7F < b.toNat) ∧
    start.cfg.lcdSizeStd ≤ (112 : Byte).toNat ∧
    start.cfg.lcdSizeStd < (111 : Byte).toNat + ([0x41, 0x42] : Text).length := by decide

theorem witness_SetLCDXTWritesTheExtenderDisplay :
    (111 : Byte).toNat < start.cfg.lcdSizeXT ∧ (111 : Byte).toNat + ([0x7F] : Text).length ≤ start.cfg.lcdSizeXT ∧
    (∀ b ∈ ([0x7F] : Text), b.toNat ≤ 0x7F) ∧ (∃ b ∈ ([0x80] : Text), 0x7F < b.toNat) ∧
    start.cfg.lcdSizeXT ≤ (112 : Byte).toNat ∧
    start.cfg.lcdSizeXT < (111 : Byte).toNat + ([0x41, 0x42] : Text).length := by decide

theorem witness_SetLCDC4WritesOneRow :
    start.cfg.wf = true ∧ (55 : Byte).toNat < start.cfg.lcdSizeC4 ∧ (3 : Byte).toNat < start.cfg.lenC4Rows ∧
    (55 : Byte).toNat + ([0x7F] : Text).length ≤ start.cfg.lcdSizeC4 ∧ (∀ b ∈ ([0x7F] : Text), b.toNat ≤ 0x7F) ∧
    (∃ b ∈ ([0x80] : Text), 0x7F < b.toNat) ∧ start.cfg.lcdSizeC4 ≤ (56 : Byte).toNat ∧
    start.cfg.lenC4Rows ≤ (4 : Byte).toNat ∧
    start.cfg.lcdSizeC4 < (55 : Byte).toNat + ([0x41, 0x42] : Text).length := by decide

theorem witness_LCDMessagesAreHeaderFrameOffsetText :
    (∃ off row, Instr.setLCDC4 55 3 [0x7A] = .setLCDC4 off row [0x7A] ∧ Variant.c4 = .c4) ∧
    AnswersWith (.setLCDC4 55 3 [0x7A]) start (.messages [.sysEx [0x00, 0x00, 0x66, 0x17, 0x33, 0x37, 0x7A]]) :=
  ⟨⟨55, 3, rfl, rfl⟩, rfl⟩

theorem witness_HeaderForReturnsTheConfiguredHeader :
    ([] : List Byte).length ≠ 1 ∧ ([0x00, 0x00] : List Byte).length ≠ 1 ∧ 3 ≤ (3 : Byte).toNat := by decide

theorem witness_HeaderIdentifiesTheVariant :
    testConfig.wf = true ∧ (lcdPayload testConfig .xt 0x12 0 []).take 4 = (lcdPayload testConfig .xt 0x13 5 [0x41]).take 4 := by
  decide

theorem witness_EncoderCommandsOnlyAnswer : Instr.setMeter 8 15 ≠ .reset ∧ (scheduled [.sequencer]).cfg = start.cfg := by
  decide

theorem witness_ResultsHaveTheirForm : Instr.setTimeDisplay [] ≠ .reset ∧ Instr.headerFor 3 ≠ .reset := by decide

/-- `SetMeter` with a level too large, while a Reset runs. -/
def inErrorDuringReset : State := { start with rsPhase := .phaseB, inputs := [.frame [0x06, 0x03, 0x10]] }

theorem witness_DomainErrorsChangeNothing :
    step inErrorDuringReset = .next { inErrorDuringReset with inputs := [], results := [.error .level] } := rfl

theorem witness_IllFormedConfigurationsAreRefused :
    testConfig.wf = true ∧ { testConfig with lenIDs := 0 }.wf = false := by decide

theorem witness_ConfigurationNeverChanges : step start = .next start := rfl

/-! #### The sequencer -/

/-- A machine in the middle of a batch: `k` messages acknowledged, one offered where `pending`. -/
def inPhaseA (k : Nat) (pending : Bool) (xs : List Input) : State :=
  { start with
    rsPhase := .phaseA, rsIndex := k, rsPending := pending, inputs := xs
    transport := eventsAt 0 (acknowledged ((batchA testConfig).take k) ++
      if pending then ((batchA testConfig)[k]?.toList.map .offered) else []) }

/-- The same in phase B, the settling having run from reading 0 to 100. -/
def inPhaseB (k : Nat) (pending : Bool) (xs : List Input) : State :=
  { start with
    rsPhase := .phaseB, rsIndex := k, rsPending := pending, clock := 100, inputs := xs
    transport := eventsAt 0 (acknowledged (batchA testConfig)) ++
      eventsAt 100 (acknowledged ((batchB testConfig).take k) ++
        if pending then ((batchB testConfig)[k]?.toList.map .offered) else []) }

/-- In the settling, begun at reading 0. -/
def inSettle (now : Nat) (xs : List Input) : State :=
  { start with
    rsPhase := .settle, rsIndex := 30, clock := now, inputs := xs
    transport := eventsAt 0 (acknowledged (batchA testConfig)) }

/-- A send abandoned by a power-on reset is answered with an error while the next Reset settles. -/
def answeredLate : State := { inSettle 0 [.lateAnswer (.err 7)] with abandoned := 1 }

theorem witness_PowerOnResetAbandonsTheRun :
    (inPhaseA 3 true [.powerOn 9]).cfg.wf = true ∧ (inPhaseA 3 true [.powerOn 9]).inputs = .powerOn 9 :: [] ∧
    (inPhaseA 3 true [.powerOn 9]).rsPending = true ∧ (scheduled [.powerOn 9]).inputs = .powerOn 9 :: [] ∧
    (scheduled [.powerOn 9]).rsPending = false ∧ answeredLate.cfg.wf = true ∧ 0 < answeredLate.abandoned ∧
    answeredLate.inputs = .lateAnswer (.err 7) :: [] ∧
    ((next? (step answeredLate)).map fun t => (t.rsPhase, t.abandoned)) = some (.settle, 0) := by decide

theorem witness_ResetStartsInIdle :
    start.rsPhase = .idle ∧ start.cfg.wf = true ∧ start.inputs = [] ∧ start.held = 0 ∧ start.rsPending = false ∧
    { start with held := 1, inputs := [.sequencer] }.inputs = .sequencer :: [] ∧
    0 < { start with held := 1, inputs := [.sequencer] }.held ∧
    ((next? (step (scheduled [.sequencer]))).map (·.rsPhase)) = some .idle ∧
    ((next? (step (scheduled [.frame [0x0D]]))).map (·.rsPhase)) = some .phaseA ∧
    ((next? (step { start with held := 1 })).map (·.rsPhase)) = some .phaseA := by decide

/-- A Reset is held while another one fails; then the sequencer has its turn. -/
def failingWithHeld : State := { inPhaseA 0 true [.answer (.err 7), .sequencer] with held := 1 }

theorem witness_ResetIsHeldWhileBusy :
    failingWithHeld.cfg.wf = true ∧ failingWithHeld.rsPhase ≠ .idle ∧
    (inSettle 0 [.frame [0x0D]]).rsPhase ≠ .idle ∧ (inSettle 0 [.frame [0x0D]]).inputs = .frame [0x0D] :: [] ∧
    ((next? (step failingWithHeld)).map fun t => (t.rsPhase, t.held, sequencerNext t)) = some (.idle, 1, true) := by
  decide

theorem witness_OfferTransition :
    (inPhaseA 29 false [.sequencer]).cfg.wf = true ∧ (inPhaseA 29 false [.sequencer]).inputs = .sequencer :: [] ∧
    (inPhaseA 29 false [.sequencer]).rsPending = false ∧ (inPhaseA 29 false [.sequencer]).rsPhase = .phaseA ∧
    (batchA testConfig)[29]? = some (.sysEx [0x00, 0x00, 0x66, 0x14, 0x12, 0x00, 0x20, 0x20]) ∧
    (inPhaseB 0 false [.sequencer]).rsPhase = .phaseB ∧ (batchB testConfig)[0]? = some (.noteOn 0 0 0) := by decide

theorem witness_FailureTransition :
    (inPhaseA 5 true [.answer (.err 7)]).cfg.wf = true ∧
    (inPhaseA 5 true [.answer (.err 7)]).inputs = .answer (.err 7) :: [] ∧
    (inPhaseA 5 true [.answer (.err 7)]).rsPending = true := by decide

theorem witness_AcknowledgeTransition :
    (inPhaseB 37 true [.answer .ok]).cfg.wf = true ∧ (inPhaseB 37 true [.answer .ok]).inputs = .answer .ok :: [] ∧
    (inPhaseB 37 true [.answer .ok]).rsPending = true := by decide

theorem witness_EndOfPhaseATransition :
    (inPhaseA 30 false [.sequencer]).cfg.wf = true ∧ (inPhaseA 30 false [.sequencer]).inputs = .sequencer :: [] ∧
    (inPhaseA 30 false [.sequencer]).rsPhase = .phaseA ∧ (inPhaseA 30 false [.sequencer]).rsPending = false ∧
    (inPhaseA 30 false [.sequencer]).rsIndex = (batchA testConfig).length := by decide

theorem witness_SettlingTransition :
    (inSettle 100 [.sequencer]).cfg.wf = true ∧ (inSettle 100 [.sequencer]).inputs = .sequencer :: [] ∧
    (inSettle 100 [.sequencer]).rsPhase = .settle ∧
    0 + 100 * testConfig.clockTicksPerMs ≤ (inSettle 100 [.sequencer]).clock ∧
    (inSettle 99 [.sequencer]).clock < 0 + 100 * testConfig.clockTicksPerMs := by decide

theorem witness_EndOfPhaseBTransition :
    (inPhaseB 38 false [.sequencer]).cfg.wf = true ∧ (inPhaseB 38 false [.sequencer]).inputs = .sequencer :: [] ∧
    (inPhaseB 38 false [.sequencer]).rsPhase = .phaseB ∧ (inPhaseB 38 false [.sequencer]).rsPending = false ∧
    (inPhaseB 38 false [.sequencer]).rsIndex = (batchB testConfig).length := by decide

/-- The result and the status that one step leaves, where it answers a next state. -/
def outcomeOf (s : State) : Option (RsResult × List Status) := (next? (step s)).map fun t => (t.rsResult, t.statuses)

theorem witness_OnlyTheSequencerWritesResult :
    outcomeOf (inPhaseA 5 true [.answer (.err 7)]) = some (.err 7, [.transportErr 7]) ∧
    outcomeOf (inPhaseB 38 false []) = some (.ok, [.ok]) ∧
    outcomeOf { start with rsResult := .ok, inputs := [.powerOn 0] } = some (.none, []) := by decide

theorem witness_IndexAdvancesByOneOrRestarts :
    ((next? (step (inPhaseA 5 true [.answer .ok]))).map (·.rsIndex)) = some 6 ∧
    ((next? (step (inSettle 100 []))).map (·.rsIndex)) = some 0 ∧
    ((next? (step { start with rsIndex := 38, inputs := [.frame [0x0D]] })).map (·.rsIndex)) = some 0 := by decide

theorem witness_SilentTransportHangsTheSequencer :
    (inPhaseA 3 true []).rsPending = true ∧ (inPhaseA 3 true []).rsPhase ≠ .idle ∧
    (inPhaseA 3 true []).rsPhase ≠ .settle ∧ noAnswerNext (inPhaseA 3 true []) = true ∧
    (next? (step (inPhaseA 3 true []))).isSome = true := by decide

theorem witness_ResetIsAcceptedAfterATransportError :
    (inPhaseB 20 true [.answer (.err 1)]).inputs = .answer (.err 1) :: [] ∧
    (next? (step (inPhaseB 20 true [.answer (.err 1)]))).isSome = true := by decide

/-- The greatest configuration of V-RESET-COUNT. -/
def greatConfig : Config := { Config.default with lenIDs := 128, lenDigits := 64 }

theorem witness_BatchLengths :
    testConfig.wf = true ∧ (batchA testConfig).length = 30 ∧ (batchB testConfig).length = 38 ∧ greatConfig.wf = true := by
  decide

theorem witness_NoDomainErrorDuringAReset :
    testConfig.wf = true ∧ Instr.setMeter 7 0x0F ∈ familyB testConfig .meter ∧
    Instr.setFaderPos 8 16382 ∈ familyA testConfig .fader := by decide

theorem witness_FamilyRecords : testConfig.wf = true ∧ greatConfig.wf = true := by decide

theorem witness_BatchesGroupTheFamilies :
    { testConfig with familyOrder := [.lcd, .digit, .meter, .vpot, .fader, .led] }.wf = true := by decide

/-! #### Whole runs -/

theorem witness_InvariantHoldsAtPowerOn : testConfig.wf = true ∧ Config.default.wf = true := by decide

/-- The invariant holds in phase A with a send outstanding, and the transport then fails (program P3b). -/
theorem witness_FailureInPhaseAStopsTheReset :
    Inv (inPhaseA 5 true [.answer (.err 7)]) ∧ (inPhaseA 5 true [.answer (.err 7)]).rsPhase = .phaseA ∧
    (inPhaseA 5 true [.answer (.err 7)]).rsPending = true ∧
    (inPhaseA 5 true [.answer (.err 7)]).inputs = .answer (.err 7) :: [] := by
  refine ⟨⟨by decide, by decide, by decide, by decide, by decide, by decide, .inl rfl, ?_⟩, rfl, rfl, rfl⟩
  exact ⟨[], _, rfl, by decide⟩

/-- The same in phase B (program P3c). -/
theorem witness_FailureInPhaseBStopsThatPhase :
    Inv (inPhaseB 20 true [.answer (.err 7)]) ∧ (inPhaseB 20 true [.answer (.err 7)]).rsPhase = .phaseB ∧
    (inPhaseB 20 true [.answer (.err 7)]).rsPending = true ∧
    (inPhaseB 20 true [.answer (.err 7)]).inputs = .answer (.err 7) :: [] := by
  refine ⟨⟨by decide, by decide, by decide, by decide, by decide, by decide, .inl rfl, ?_⟩, rfl, rfl, rfl⟩
  refine ⟨[], eventsAt 0 (acknowledged (batchA testConfig)), _, rfl, ⟨by decide, ?_⟩, by decide, ?_⟩
  · unfold SequencerUpTo
    decide
  · unfold SequencerFrom
    decide

/-- At the end of batch B the sequencer's turn ends the command. -/
theorem witness_CompletedResetSentBothBatches :
    Inv (inPhaseB 38 false [.sequencer]) ∧ (inPhaseB 38 false [.sequencer]).rsPhase = .phaseB ∧
    ((next? (step (inPhaseB 38 false [.sequencer]))).map fun t => (t.rsPhase, t.rsResult)) = some (.idle, .ok) := by
  refine ⟨⟨by decide +kernel, by decide +kernel, by decide +kernel, by decide +kernel, by decide +kernel, by decide +kernel, .inl rfl, ?_⟩, rfl, by decide⟩
  refine ⟨[], eventsAt 0 (acknowledged (batchA testConfig)), _, rfl, ⟨by decide, ?_⟩, by decide, ?_⟩
  · unfold SequencerUpTo
    decide
  · unfold SequencerFrom
    decide

/-- The invariant holds in the settling, whose turn starts batch B. -/
theorem witness_EveryStepKeepsTheInvariant :
    Inv (inSettle 100 []) ∧ ((next? (step (inSettle 100 []))).map (·.rsPhase)) = some .phaseB := by
  refine ⟨⟨by decide, by decide, by decide, by decide, by decide, by decide, .inl rfl, ?_⟩, by decide⟩
  refine ⟨[], _, rfl, by decide, ?_⟩
  unfold SequencerUpTo
  decide

/-- The schedule of a Reset whose sends all succeed. -/
def wholeReset : List Input :=
  [.frame [0x0D]] ++ acknowledgedSends (batchA testConfig).length ++ [.sequencer, .clock 100, .sequencer] ++
    acknowledgedSends (batchB testConfig).length ++ [.sequencer] ++ []

theorem witness_ResetRunsToCompletion :
    (scheduled wholeReset).cfg.wf = true ∧ (scheduled wholeReset).rsPhase = .idle ∧
    100 * (scheduled wholeReset).cfg.clockTicksPerMs ≤ 100 ∧ (scheduled wholeReset).inputs = wholeReset :=
  ⟨by decide, rfl, by decide, rfl⟩

theorem witness_EncoderCommandsCommuteWithInputs :
    Instr.sendOff 1 ≠ .reset ∧ (∀ f, Input.answer .ok = .frame f → decode f = .ok .reset) ∧
    takeInput (.answer .ok) (inPhaseA 5 true []) = .next (acknowledgeSend (inPhaseA 5 true [])) ∧
    (∀ f, Input.frame [0x0D] = .frame f → decode f = .ok .reset) ∧
    takeInput (.frame [0x0D]) start = .next (startReset start) ∧
    takeInput (.frame [0x0D]) (inPhaseA 5 true []) = .next (holdReset (inPhaseA 5 true [])) :=
  ⟨by decide, fun _ => Input.noConfusion, rfl, fun f h => by injection h with h; subst h; rfl, rfl, rfl⟩

theorem witness_OtherSendersInterleave :
    (inPhaseA 5 true [.callerSend (.noteOn 0 1 2)]).cfg.wf = true ∧
    (inPhaseA 5 true [.callerSend (.noteOn 0 1 2)]).inputs = .callerSend (.noteOn 0 1 2) :: [] := by decide

theorem witness_ClockNeverGoesBack :
    start.cfg.wf = true ∧ (scheduled [.clock 3]).inputs = .clock 3 :: [] ∧
    ((next? (step (scheduled [.clock 3]))).map (·.clock)) = some 3 ∧
    (inSettle 99 [.clock 0]).inputs = .clock 0 :: [] := by decide

theorem witness_OnlyUnsolicitedAnswersStop :
    start.cfg.wf = true ∧ answerExpected (inPhaseA 0 true [.answer .ok]) = true ∧
    answerExpected (scheduled [.answer .ok]) = false ∧ answerExpected (scheduled [.lateAnswer .ok]) = false := by decide

theorem witness_ChannelVoiceSerialization :
    (0x7F : Byte).toNat ≤ 0x7F ∧ 0x7F < (0x80 : Byte).toNat := by decide

theorem witness_PitchBendSerializationIsLossless :
    (-8191 : Int) ≤ -8191 ∧ (8191 : Int) ≤ 8191 ∧
    serialize (.pitchBend 15 (-8191)) = some [0xEF, 0x01, 0x00] ∧ serialize (.pitchBend 15 0) = some [0xEF, 0x00, 0x40] := by
  decide

theorem witness_SysExPayloadsAreSevenBit :
    start.cfg.wf = true ∧
    AnswersWith (.setLCD 111 [0x7F]) start (.messages [.sysEx [0x00, 0x00, 0x66, 0x14, 0x12, 0x6F, 0x7F]]) ∧
    Message.sysEx [0x00, 0x00, 0x66, 0x14, 0x12, 0x6F, 0x7F] ∈
      [Message.sysEx [0x00, 0x00, 0x66, 0x14, 0x12, 0x6F, 0x7F]] :=
  ⟨by decide, rfl, by decide⟩

theorem witness_MessageLengths :
    serialize (.chanPressure 0 0x7F) = some [0xD0, 0x7F] ∧ serialize (.sysEx []) = some [0xF0, 0xF7] ∧
    serialize (.noteOn 0 0 0x7F) = some [0x90, 0x00, 0x7F] := by decide

theorem witness_ErrorCodes : DomainError.code .variant = DomainError.code .variant := rfl

end Sys2Proof.Tests
end

section
/-! SUPPORT. The scope's statements (00_scope R8, R9): each group of checks of `Config.wf` holds exactly when the
constraints of R8 that it stands for do, and a configuration is refused exactly when one of them fails. -/

namespace Sys2Proof.Config

/-! ### What each group of checks says -/

theorem sizeOk_iff (n : Nat) : sizeOk n = true ↔ 1 ≤ n ∧ n ≤ 128 := by
  simp only [sizeOk, Bool.and_eq_true, decide_eq_true_eq]

theorem headerOk_iff (h : Header) : headerOk h = true ↔ ∀ b ∈ h.bytes, b.toNat ≤ 0x7F := by
  simp only [headerOk, List.all_eq_true, dataByte_iff]

theorem forall_variant {p : Variant → Prop} : (∀ v, p v) ↔ p .std ∧ p .xt ∧ p .c4 := by
  constructor
  · exact fun h => ⟨h .std, h .xt, h .c4⟩
  · rintro ⟨hs, hx, hc⟩ (_ | _ | _)
    · exact hs
    · exact hx
    · exact hc

theorem countsOk_iff (c : Config) :
    c.countsOk = true ↔ (1 ≤ c.lenIDs ∧ c.lenIDs ≤ 128) ∧ (1 ≤ c.lenDigits ∧ c.lenDigits ≤ 64) ∧
      (1 ≤ c.lenLines ∧ 1 ≤ c.lineWidth ∧ c.lenLines * c.lineWidth ≤ c.lcdSizeStd) := by
  simp only [countsOk, Bool.and_eq_true, decide_eq_true_eq, and_assoc]

/-- Pairwise distinct headers: the variant is known from its header. -/
theorem header_injective_iff (c : Config) :
    (∀ v w, c.header v = c.header w → v = w) ↔
      c.headerStd ≠ c.headerXT ∧ c.headerStd ≠ c.headerC4 ∧ c.headerXT ≠ c.headerC4 := by
  constructor
  · intro h
    exact ⟨fun e => Variant.noConfusion (h .std .xt e), fun e => Variant.noConfusion (h .std .c4 e),
      fun e => Variant.noConfusion (h .xt .c4 e)⟩
  · rintro ⟨hsx, hsc, hxc⟩
    exact fun
      | .std, .std, _ | .xt, .xt, _ | .c4, .c4, _ => rfl
      | .std, .xt, e => absurd e hsx
      | .std, .c4, e => absurd e hsc
      | .xt, .c4, e => absurd e hxc
      | .xt, .std, e => absurd e.symm hsx
      | .c4, .std, e => absurd e.symm hsc
      | .c4, .xt, e => absurd e.symm hxc

theorem headersOk_iff (c : Config) :
    c.headersOk = true ↔
      (∀ v, ∀ b ∈ (c.header v).bytes, b.toNat ≤ 0x7F) ∧ (∀ v w, c.header v = c.header w → v = w) := by
  rw [forall_variant, header_injective_iff]
  simp only [headersOk, headerOk_iff, Bool.and_eq_true, bne_iff_ne, header, and_assoc]

theorem displaysOk_iff (c : Config) :
    c.displaysOk = true ↔ c.lcdFrameByte.toNat ≤ 0x7F ∧ (∀ v, 1 ≤ c.lcdSize v ∧ c.lcdSize v ≤ 128) ∧
      (1 ≤ c.lenC4Rows ∧ c.lenC4Rows ≤ 0x50) := by
  rw [forall_variant]
  simp only [displaysOk, sizeOk_iff, Bool.and_eq_true, dataByte_iff, decide_eq_true_eq, lcdSize, and_assoc]

theorem namedValuesOk_iff (c : Config) :
    c.namedValuesOk = true ↔
      (c.stateOn.toNat ≤ 0x7F ∧ c.stateOff.toNat ≤ 0x7F ∧ c.stateOn ≠ c.stateOff) ∧
      (c.meterLessThan60.toNat < 16 ∧ c.meterClipping.toNat < 16 ∧ c.meterClipOff.toNat < 16 ∧
        c.meterClipOff ≠ c.meterClipping) ∧
      (c.vpotMode3.toNat + c.vpotLEDCenter.toNat ≤ 0xFF ∧ c.vpotMode0.toNat + c.vpotLEDOff.toNat ≤ 0xFF) := by
  simp only [namedValuesOk, Bool.and_eq_true, dataByte_iff, decide_eq_true_eq, bne_iff_ne, and_assoc]

theorem orderOk_of_perm {c : Config} (hp : c.familyOrder.Perm allFamilies) : c.orderOk = true := by
  simp only [orderOk, Bool.and_eq_true, beq_iff_eq, List.all_eq_true, List.contains_iff_mem]
  exact ⟨hp.length_eq, fun f hf => hp.mem_iff.2 hf⟩

/-- A configuration is well-formed exactly when every group of checks passes, the family order's being that it is a
permutation. -/
theorem wf_iff_groups (c : Config) :
    c.wf = true ↔ c.countsOk = true ∧ c.headersOk = true ∧ c.displaysOk = true ∧ c.namedValuesOk = true ∧
      c.familyOrder.Perm allFamilies ∧ 1 ≤ c.clockTicksPerMs := by
  constructor
  · intro hw
    obtain ⟨hcounts, hheaders, hdisplays, hnamed, -, hclock⟩ := wf_parts hw
    exact ⟨hcounts, hheaders, hdisplays, hnamed, Machine.familyOrder_perm hw, hclock⟩
  · rintro ⟨hcounts, hheaders, hdisplays, hnamed, hperm, hclock⟩
    simp only [wf, hcounts, hheaders, hdisplays, hnamed, orderOk_of_perm hperm, hclock, decide_true, Bool.and_self]

end Sys2Proof.Config

namespace Sys2Proof.Machine

/-! ### Configuration time, and a step of an ill-formed machine -/

theorem configure_of_wf {c : Config} (hw : c.wf = true) : configure c = .next (State.powerOn c) := by
  simp only [configure, hw, if_true]

theorem configure_of_not_wf {c : Config} (hw : c.wf = false) : configure c = .refused .illFormedConfig := by
  simp only [configure, hw, Bool.false_eq_true, if_false]

theorem step_of_not_wf {s : State} (hw : s.cfg.wf = false) : step s = .refused .illFormedConfig := by
  simp only [step, hw, Bool.false_eq_true, if_false]

end Sys2Proof.Machine

namespace Sys2Proof.Proofs

open Sys2Proof Sys2Proof.Machine

/-- Settles O26: the groups of checks are the constraints of R8, group by group. -/
theorem configurationConstraints : Obligations.ConfigurationConstraints := by
  intro c
  rw [Config.wf_iff_groups, Config.countsOk_iff, Config.headersOk_iff, Config.displaysOk_iff,
    Config.namedValuesOk_iff, Config.allFamilies]
  simp only [and_assoc]

/-- Settles O27: `configure` and `step` both check the configuration before anything else; the power-on state's fields
are given by its laws. -/
theorem illFormedConfigurationsAreRefused : Obligations.IllFormedConfigurationsAreRefused := by
  intro c
  refine ⟨configure_of_wf, ?powerOn, fun hw => ⟨configure_of_not_wf hw, ?refused⟩⟩
  case powerOn =>
    exact ⟨powerOn_cfg c, powerOn_rsPhase c, powerOn_rsIndex c, powerOn_rsPending c, powerOn_rsResult c⟩
  case refused =>
    rintro s rfl
    exact step_of_not_wf hw

end Sys2Proof.Proofs
end

section
/-! SUPPORT. What one step can do, one constructor an effect; which effects write the configuration, the clock,
`rs_result` and `rs_index` (10_state R22 to R28). -/

namespace Sys2Proof.Machine

variable {s t : State} {x : Input} {rest : List Input}

/-! ### What one step can do -/

/-- The inputs the next step may take: the schedule's first, or, with none left, the sequencer's turn. -/
def Takes (s : State) (x : Input) (rest : List Input) : Prop :=
  s.inputs = x :: rest ∨ (s.inputs = [] ∧ rest = [] ∧ x = .sequencer)

/-- What an input can make of a state, each effect with its guard. -/
inductive Effect (s : State) : Input → State → Prop
  | answered (f : Frame) (r : Result) : Effect s (.frame f) (emit r s)
  | started (f : Frame) : decode f = .ok .reset → s.rsPhase = .idle → Effect s (.frame f) (startReset s)
  | held (f : Frame) : decode f = .ok .reset → s.rsPhase ≠ .idle → Effect s (.frame f) (holdReset s)
  | acknowledged : s.rsPending = true → Effect s (.answer .ok) (acknowledgeSend s)
  | failed (e : TransportError) : s.rsPending = true → Effect s (.answer (.err e)) (takeTransportError e s)
  | ignored (a : Answer) : 0 < s.abandoned → Effect s (.lateAnswer a) { s with abandoned := s.abandoned - 1 }
  | clocked (d : Nat) : Effect s (.clock d) (advanceClock d s)
  | startedHeld : s.rsPhase = .idle → 0 < s.held →
      Effect s .sequencer (startReset { s with held := s.held - 1 })
  | offered (m : Message) : s.rsPending = false → (currentBatch s)[s.rsIndex]? = some m →
      Effect s .sequencer (offerSend m s)
  | endedA : s.rsPhase = .phaseA → s.rsPending = false → s.rsIndex = (batchA s.cfg).length →
      Effect s .sequencer (endPhaseA s)
  | endedSettle : s.rsPhase = .settle → s.rsSettleStart + s.cfg.settleTicks ≤ s.clock →
      Effect s .sequencer (endSettle s)
  | endedB : s.rsPhase = .phaseB → s.rsPending = false → s.rsIndex = (batchB s.cfg).length →
      Effect s .sequencer (endPhaseB s)
  | rested : Effect s .sequencer s
  | callerSent (m : Message) : Effect s (.callerSend m) (onTransport (.callerSent m) s)
  | poweredOn (v : Nat) : Effect s (.powerOn v) (powerOnReset v s)

theorem sequencerTurn_effect (s : State) : Effect s .sequencer (sequencerTurn s) := by
  rcases sequencerTurn_cases s with ⟨hp, hh, e⟩ | ⟨m, hq, hm, e⟩ | ⟨hp, hq, hi, e⟩ | ⟨hp, hc, e⟩ |
    ⟨hp, hq, hi, e⟩ | e <;> rw [e]
  · exact .startedHeld hp hh
  · exact .offered m hq hm
  · exact .endedA hp hq hi
  · exact .endedSettle hp hc
  · exact .endedB hp hq hi
  · exact .rested

theorem takeInput_effect (h : takeInput x s = .next t) : Effect s x t := by
  rcases takeInput_cases x s t h with ⟨f, r, rfl, rfl⟩ | ⟨f, rfl, hd, hp, rfl⟩ | ⟨f, rfl, hd, hp, rfl⟩ |
    ⟨rfl, hq, rfl⟩ | ⟨e, rfl, hq, rfl⟩ | ⟨a, rfl, ha, rfl⟩ | ⟨d, rfl, rfl⟩ | ⟨rfl, rfl⟩ | ⟨m, rfl, rfl⟩ | ⟨v, rfl, rfl⟩
  · exact .answered f r
  · exact .started f hd hp
  · exact .held f hd hp
  · exact .acknowledged hq
  · exact .failed e hq
  · exact .ignored a ha
  · exact .clocked d
  · exact sequencerTurn_effect s
  · exact .callerSent m
  · exact .poweredOn v

/-- A step is the effect of the input it takes, that input being used up. -/
theorem step_effect (h : step s = .next t) : ∃ x rest, Takes s x rest ∧ Effect { s with inputs := rest } x t := by
  obtain ⟨-, ⟨he, rfl⟩ | ⟨x, rest, hi, ht⟩⟩ := step_cases s t h
  · refine ⟨.sequencer, [], .inr ⟨he, rfl, rfl⟩, ?_⟩
    rw [show { s with inputs := [] } = s by rw [← he]]
    exact sequencerTurn_effect s
  · exact ⟨x, rest, .inl hi, takeInput_effect ht⟩

/-! ### Which input a step takes -/

theorem Takes.inputs_eq (h : Takes s x rest) (hx : x ≠ .sequencer) : s.inputs = x :: rest :=
  h.resolve_right fun ⟨_, _, e⟩ => hx e

theorem Takes.sequencerNext (h : Takes s .sequencer rest) : sequencerNext s = true := by
  rcases h with e | ⟨e, -⟩ <;> simp [Machine.sequencerNext, e]

theorem Takes.acceptsReset_of_held (h : Takes s .sequencer rest) (hh : 0 < s.held) : acceptsReset s = true := by
  rcases h with e | ⟨e, -⟩ <;> simp [acceptsReset, e, hh]

theorem readOperands_eq_reset {o : Opcode} {operands : List Byte} (h : readOperands o operands = some .reset) :
    o = .reset ∧ operands = [] := by
  cases o <;> simp only [readOperands] at h
  case reset =>
    split at h
    · exact ⟨rfl, rfl⟩
    · cases h
  case setTimeDisplay => simp at h
  all_goals split at h <;> simp at h

/-- Only the frame `0D` encodes Reset. -/
theorem decode_eq_reset {f : Frame} (h : decode f = .ok .reset) : f = [0x0D] := by
  obtain ⟨o, operands, rfl, hr⟩ := (decode_eq_ok f .reset).1 h
  obtain ⟨rfl, rfl⟩ := readOperands_eq_reset hr
  rfl

theorem Takes.acceptsReset_of_frame {f : Frame} (h : Takes s (.frame f) rest) (hd : decode f = .ok .reset) :
    acceptsReset s = true := by
  simp [acceptsReset, h.inputs_eq nofun, decode_eq_reset hd]

/-! ### Registers that few effects write -/

theorem Effect.cfg_eq (h : Effect s x t) : t.cfg = s.cfg := by
  cases h <;> rfl

theorem Effect.clock_eq (h : Effect s x t) : t.clock = s.clock ∨ ∃ d, x = .clock d ∧ t.clock = s.clock + d := by
  cases h with
  | clocked d => exact .inr ⟨d, rfl, rfl⟩
  | _ => exact .inl rfl

theorem Effect.rsResult_eq (h : Effect s x t) :
    t.rsResult = s.rsResult ∨
    (∃ e, x = .answer (.err e) ∧ s.rsPending = true ∧ t.rsResult = .err e ∧
      t.statuses = s.statuses ++ [.transportErr e]) ∨
    (x = .sequencer ∧ s.rsPhase = .phaseB ∧ s.rsPending = false ∧ s.rsIndex = (batchB s.cfg).length ∧
      t.rsResult = .ok ∧ t.statuses = s.statuses ++ [.ok]) ∨
    (∃ v, x = .powerOn v ∧ t.rsResult = .none ∧ t.statuses = s.statuses) := by
  cases h with
  | failed e hq => exact .inr (.inl ⟨e, rfl, hq, rfl, rfl⟩)
  | endedB hp hq hi => exact .inr (.inr (.inl ⟨rfl, hp, hq, hi, rfl, rfl⟩))
  | poweredOn v => exact .inr (.inr (.inr ⟨v, rfl, rfl, rfl⟩))
  | _ => exact .inl rfl

end Sys2Proof.Machine

namespace Sys2Proof.Proofs

open Sys2Proof Sys2Proof.Machine

/-- Settles O28: no effect writes the configuration. -/
theorem configurationNeverChanges : Obligations.ConfigurationNeverChanges := by
  intro s t h
  obtain ⟨x, rest, -, he⟩ := step_effect h
  exact he.cfg_eq

/-- Settles O54: the clock's input is the only effect that moves the reading. -/
theorem clockNeverGoesBack : Obligations.ClockNeverGoesBack := by
  refine ⟨?moves, ?changesNothingElse⟩
  case moves =>
    intro s t h
    obtain ⟨x, rest, hx, he⟩ := step_effect h
    obtain hc | ⟨d, rfl, hc⟩ := he.clock_eq
    · exact ⟨hc.ge, fun hne => absurd hc hne⟩
    · exact ⟨hc ▸ Nat.le_add_right _ d, fun _ => ⟨d, rest, hx.inputs_eq nofun, hc⟩⟩
  case changesNothingElse =>
    intro s d rest hw hi
    exact step_input s _ rest hw hi

/-- Settles O38: the three effects that write `rs_result`, each with what it reports. -/
theorem onlyTheSequencerWritesResult : Obligations.OnlyTheSequencerWritesResult := by
  intro s t h hne
  obtain ⟨x, rest, hx, he⟩ := step_effect h
  obtain hr | ⟨e, rfl, hq, hr, hst⟩ | ⟨rfl, hp, hq, hi, hr, hst⟩ | ⟨v, rfl, hr, hst⟩ := he.rsResult_eq
  · exact absurd hr hne
  · exact .inl ⟨e, rest, hx.inputs_eq nofun, hq, hr, hst⟩
  · exact .inr (.inl ⟨hp, hq, hi, hx.sequencerNext, hr, hst⟩)
  · exact .inr (.inr ⟨v, rest, hx.inputs_eq nofun, hr, hst⟩)

/-- Settles O39: the acknowledgement counts; the two starts, the end of the settling and power-on put 0. -/
theorem indexAdvancesByOneOrRestarts : Obligations.IndexAdvancesByOneOrRestarts := by
  intro s t h hne
  obtain ⟨x, rest, hx, he⟩ := step_effect h
  cases he with
  | acknowledged hq => exact .inl ⟨rest, hx.inputs_eq nofun, hq, rfl⟩
  | started f hd hp => exact .inr ⟨rfl, .inl ⟨hp, rfl, hx.acceptsReset_of_frame hd⟩⟩
  | startedHeld hp hh => exact .inr ⟨rfl, .inl ⟨hp, rfl, hx.acceptsReset_of_held hh⟩⟩
  | endedSettle hp _ => exact .inr ⟨rfl, .inr (.inl ⟨hp, rfl, hx.sequencerNext⟩)⟩
  | poweredOn v => exact .inr ⟨rfl, .inr (.inr ⟨v, rest, hx.inputs_eq nofun⟩)⟩
  | _ => exact absurd rfl hne

/-- Settles O1: the step takes the frame, and the frame's command runs. -/
theorem stepRunsTheDecodedCommand : Obligations.StepRunsTheDecodedCommand := by
  intro s f rest i hw hi hd
  rw [step_input s _ rest hw hi]
  simp only [takeInput, acceptFrame, hd]

end Sys2Proof.Proofs
end

section
/-! SUPPORT. The invariant of the machine: how the history of the transport port grows, and that every effect keeps the
invariant (10_state R21 to R31; 44_reset_sequencer R181). -/

namespace Sys2Proof.Machine

variable {s t : State} {x : Input}

/-! ### The present batch and its progress -/

@[simp] theorem currentBatch_offerSend (m : Message) (s : State) : currentBatch (offerSend m s) = currentBatch s := rfl

@[simp] theorem currentBatch_acknowledgeSend (s : State) : currentBatch (acknowledgeSend s) = currentBatch s := rfl

theorem currentBatch_phaseA (h : s.rsPhase = .phaseA) : currentBatch s = batchA s.cfg := by simp [currentBatch, h]

theorem currentBatch_settle (h : s.rsPhase = .settle) : currentBatch s = [] := by simp [currentBatch, h]

theorem currentBatch_length_le_indexBound (s : State) : (currentBatch s).length ≤ indexBound s := by
  unfold currentBatch indexBound
  cases s.rsPhase <;> simp

theorem indexBound_le_max (s : State) : indexBound s ≤ max (batchA s.cfg).length (batchB s.cfg).length := by
  unfold indexBound
  cases s.rsPhase <;> simp

/-- An offer is one more action of the batch. -/
theorem progress_offerSend {m : Message} (hq : s.rsPending = false) (hm : (currentBatch s)[s.rsIndex]? = some m) :
    progress (offerSend m s) = progress s ++ [.offered m] := by
  simp [progress, outstanding, hq, hm]

/-- An acknowledgement closes the outstanding offer and moves on to the next message. -/
theorem progress_acknowledgeSend (hq : s.rsPending = true) (hi : s.rsIndex < (currentBatch s).length) :
    progress (acknowledgeSend s) = progress s ++ [.answered .ok] := by
  have hm := List.getElem?_eq_getElem hi
  simp [progress, outstanding, hq, hm, acknowledged_take_succ _ _ _ hm]

theorem progress_of_complete (hq : s.rsPending = false) (hi : s.rsIndex = (currentBatch s).length) :
    progress s = acknowledged (currentBatch s) := by
  simp [progress, outstanding, hq, hi]

theorem progress_of_fresh (hq : s.rsPending = false) (hi : s.rsIndex = 0) : progress s = [] := by
  simp [progress, outstanding, hq, hi]

/-! ### The history of the transport port -/

theorem runHistory_idle (hp : s.rsPhase = .idle) : RunHistory s := by simp [RunHistory, hp]

theorem runHistory_phaseA (hp : s.rsPhase = .phaseA) :
    RunHistory s ↔ ∃ before run, s.transport = before ++ run ∧ sequencerActions run = progress s := by
  simp only [RunHistory, hp]

theorem runHistory_settle (hp : s.rsPhase = .settle) :
    RunHistory s ↔ ∃ before run, s.transport = before ++ run ∧ DeliveredA s run := by
  simp only [RunHistory, hp]

theorem runHistory_phaseB (hp : s.rsPhase = .phaseB) :
    RunHistory s ↔ ∃ before runA runB, s.transport = before ++ runA ++ runB ∧ DeliveredA s runA ∧
      sequencerActions runB = progress s ∧ SequencerFrom (s.rsSettleStart + s.cfg.settleTicks) runB := by
  simp only [RunHistory, hp]

theorem SequencerUpTo.append {n : Nat} {a b : List TransportEvent} (ha : SequencerUpTo n a) (hb : SequencerUpTo n b) :
    SequencerUpTo n (a ++ b) :=
  List.forall_mem_append.2 ⟨ha, hb⟩

theorem SequencerFrom.append {n : Nat} {a b : List TransportEvent} (ha : SequencerFrom n a) (hb : SequencerFrom n b) :
    SequencerFrom n (a ++ b) :=
  List.forall_mem_append.2 ⟨ha, hb⟩

/-- The history grows by one event that is the batch's next action, and that is another sender's during the settling. -/
theorem RunHistory.append {e : TransportEvent} (h : RunHistory s) (hcfg : t.cfg = s.cfg)
    (hphase : t.rsPhase = s.rsPhase) (hstart : t.rsSettleStart = s.rsSettleStart)
    (htransport : t.transport = s.transport ++ [e]) (hprogress : progress t = progress s ++ sequencerActions [e])
    (hsettle : s.rsPhase = .settle → bySequencer e = false)
    (hbarrier : s.rsPhase = .phaseB → s.rsSettleStart + s.cfg.settleTicks ≤ e.time) : RunHistory t := by
  cases hp : s.rsPhase with
  | idle => exact runHistory_idle (hphase.trans hp)
  | phaseA =>
    obtain ⟨before, run, hb, ha⟩ := (runHistory_phaseA hp).1 h
    refine (runHistory_phaseA (hphase.trans hp)).2 ⟨before, run ++ [e], ?_, ?_⟩
    · rw [htransport, hb, List.append_assoc]
    · rw [sequencerActions_append, ha, hprogress]
  | settle =>
    obtain ⟨before, run, hb, hd, hu⟩ := (runHistory_settle hp).1 h
    have hquiet := hsettle hp
    refine (runHistory_settle (hphase.trans hp)).2 ⟨before, run ++ [e], ?_, ?_, ?_⟩
    · rw [htransport, hb, List.append_assoc]
    · rw [sequencerActions_append, hd, hcfg]
      simp [sequencerActions, hquiet]
    · rw [hstart]
      exact hu.append (by simp [SequencerUpTo, hquiet])
  | phaseB =>
    obtain ⟨before, runA, runB, hb, ⟨hd, hu⟩, ha, hf⟩ := (runHistory_phaseB hp).1 h
    refine (runHistory_phaseB (hphase.trans hp)).2 ⟨before, runA, runB ++ [e], ?_, ⟨?_, ?_⟩, ?_, ?_⟩
    · rw [htransport, hb, List.append_assoc]
    · rw [hd, hcfg]
    · rw [hstart]
      exact hu
    · rw [sequencerActions_append, ha, hprogress]
    · rw [hstart, hcfg]
      exact hf.append (by simp [SequencerFrom, hbarrier hp])

/-! ### The invariant, effect by effect -/

/-- The invariant does not look at held frames, abandoned sends, encoder results or the schedule. -/
theorem Inv.of_ports (h : Inv s) (held abandoned : Nat) (results : List Result) (inputs : List Input) :
    Inv { s with held := held, abandoned := abandoned, results := results, inputs := inputs } :=
  ⟨h.config, h.index, h.pending, h.settle, h.barrier, h.past, h.reported, h.history⟩

theorem Inv.not_pending (h : Inv s) (he : currentBatch s = []) : s.rsPending = false := by
  cases hq : s.rsPending with
  | false => rfl
  | true =>
    have hi := h.pending hq
    simp [he] at hi

/-- An event at the clock's present reading lies in the past. -/
theorem Inv.past_onTransport (h : Inv s) (a : PortAction) : ∀ e ∈ (onTransport a s).transport, e.time ≤ s.clock :=
  List.forall_mem_append.2 ⟨h.past, by simp⟩

/-- The status reported last is the one whose value `rs_result` takes. -/
theorem reported_append (st : Status) (sts : List Status) :
    resultOfStatus st = .none ∨ ∃ st', (sts ++ [st]).getLast? = some st' ∧ resultOfStatus st' = resultOfStatus st :=
  .inr ⟨st, List.getLast?_concat, rfl⟩

theorem inv_startReset (h : Inv s) : Inv (startReset s) where
  config := h.config
  index := Nat.zero_le _
  pending := nofun
  settle := nofun
  barrier := nofun
  past := h.past
  reported := h.reported
  history := (runHistory_phaseA rfl).2 ⟨s.transport, [], (List.append_nil _).symm, (progress_of_fresh rfl rfl).symm⟩

theorem inv_offerSend (h : Inv s) {m : Message} (hq : s.rsPending = false) (hm : (currentBatch s)[s.rsIndex]? = some m) :
    Inv (offerSend m s) where
  config := h.config
  index := h.index
  pending _ := (List.getElem?_eq_some_iff.1 hm).1
  settle := h.settle
  barrier := h.barrier
  past := h.past_onTransport _
  reported := h.reported
  history := by
    refine h.history.append rfl rfl rfl rfl (progress_offerSend hq hm) (fun hp => ?_) h.barrier
    simp [currentBatch_settle hp] at hm

theorem inv_acknowledgeSend (h : Inv s) (hq : s.rsPending = true) : Inv (acknowledgeSend s) where
  config := h.config
  index := (h.pending hq).trans_le (currentBatch_length_le_indexBound s)
  pending := nofun
  settle := h.settle
  barrier := h.barrier
  past := h.past_onTransport _
  reported := h.reported
  history := by
    refine h.history.append rfl rfl rfl rfl (progress_acknowledgeSend hq (h.pending hq)) (fun hp => ?_) h.barrier
    have hi := h.pending hq
    simp [currentBatch_settle hp] at hi

theorem inv_takeTransportError (h : Inv s) (e : TransportError) : Inv (takeTransportError e s) where
  config := h.config
  index := h.index.trans (indexBound_le_max s)
  pending := nofun
  settle := nofun
  barrier := nofun
  past := h.past_onTransport _
  reported := reported_append (.transportErr e) s.statuses
  history := runHistory_idle rfl

theorem inv_advanceClock (h : Inv s) (d : Nat) : Inv (advanceClock d s) where
  config := h.config
  index := h.index
  pending := h.pending
  settle hp := Nat.le_add_right_of_le (h.settle hp)
  barrier hp := Nat.le_add_right_of_le (h.barrier hp)
  past e he := Nat.le_add_right_of_le (h.past e he)
  reported := h.reported
  history := h.history

theorem inv_endPhaseA (h : Inv s) (hp : s.rsPhase = .phaseA) (hq : s.rsPending = false)
    (hi : s.rsIndex = (batchA s.cfg).length) : Inv (endPhaseA s) where
  config := h.config
  index := hi.le
  pending hq' := absurd (hq.symm.trans hq') nofun
  settle _ := Nat.le_refl s.clock
  barrier := nofun
  past := h.past
  reported := h.reported
  history := by
    obtain ⟨before, run, hb, ha⟩ := (runHistory_phaseA hp).1 h.history
    have hcur := currentBatch_phaseA hp
    refine (runHistory_settle rfl).2 ⟨before, run, hb, ?_, fun e he _ => h.past e ?_⟩
    · rw [ha, progress_of_complete hq (hcur ▸ hi), hcur, endPhaseA_cfg]
    · exact hb ▸ List.mem_append_right before he

theorem inv_endSettle (h : Inv s) (hp : s.rsPhase = .settle) (hc : s.rsSettleStart + s.cfg.settleTicks ≤ s.clock) :
    Inv (endSettle s) where
  config := h.config
  index := Nat.zero_le _
  pending hq := absurd ((h.not_pending (currentBatch_settle hp)).symm.trans hq) nofun
  settle := nofun
  barrier _ := hc
  past := h.past
  reported := h.reported
  history := by
    obtain ⟨before, run, hb, hd⟩ := (runHistory_settle hp).1 h.history
    have hfresh := progress_of_fresh (s := endSettle s) (h.not_pending (currentBatch_settle hp)) rfl
    exact (runHistory_phaseB rfl).2 ⟨before, run, [], by simpa using hb, hd, hfresh.symm, nofun⟩

theorem inv_endPhaseB (h : Inv s) (hq : s.rsPending = false) : Inv (endPhaseB s) where
  config := h.config
  index := h.index.trans (indexBound_le_max s)
  pending hq' := absurd (hq.symm.trans hq') nofun
  settle := nofun
  barrier := nofun
  past := h.past
  reported := reported_append .ok s.statuses
  history := runHistory_idle rfl

theorem inv_callerSent (h : Inv s) (m : Message) : Inv (onTransport (.callerSent m) s) where
  config := h.config
  index := h.index
  pending := h.pending
  settle := h.settle
  barrier := h.barrier
  past := h.past_onTransport _
  reported := h.reported
  history := h.history.append rfl rfl rfl rfl (List.append_nil _).symm (fun _ => rfl) h.barrier

theorem inv_powerOnReset (h : Inv s) (v : Nat) : Inv (powerOnReset v s) where
  config := h.config
  index := Nat.zero_le _
  pending := nofun
  settle := nofun
  barrier := nofun
  past := h.past
  reported := .inl rfl
  history := runHistory_idle rfl

theorem inv_powerOn {c : Config} (hw : c.wf = true) : Inv (State.powerOn c) where
  config := hw
  index := Nat.zero_le _
  pending := nofun
  settle := nofun
  barrier := nofun
  past := nofun
  reported := .inl rfl
  history := runHistory_idle rfl

/-- Every effect keeps the invariant. -/
theorem Inv.effect (h : Inv s) (he : Effect s x t) : Inv t := by
  cases he with
  | answered f r => exact h.of_ports _ _ _ _
  | started f _ _ => exact inv_startReset h
  | held f _ _ => exact h.of_ports _ _ _ _
  | acknowledged hq => exact inv_acknowledgeSend h hq
  | failed e _ => exact inv_takeTransportError h e
  | ignored a _ => exact h.of_ports _ _ _ _
  | clocked d => exact inv_advanceClock h d
  | startedHeld _ _ => exact inv_startReset (h.of_ports _ _ _ _)
  | offered m hq hm => exact inv_offerSend h hq hm
  | endedA hp hq hi => exact inv_endPhaseA h hp hq hi
  | endedSettle hp hc => exact inv_endSettle h hp hc
  | endedB _ hq _ => exact inv_endPhaseB h hq
  | rested => exact h
  | callerSent m => exact inv_callerSent h m
  | poweredOn v => exact inv_powerOnReset h v

end Sys2Proof.Machine

namespace Sys2Proof.Proofs

open Sys2Proof Sys2Proof.Machine

/-- Settles O47: a step is an effect, and every effect keeps the invariant. -/
theorem everyStepKeepsTheInvariant : Obligations.EveryStepKeepsTheInvariant := by
  intro s t hi h
  obtain ⟨x, rest, -, he⟩ := step_effect h
  exact (hi.of_ports _ _ _ rest).effect he

/-- Settles O46: with an empty port and an idle sequencer the invariant asks only for a well-formed configuration. -/
theorem invariantHoldsAtPowerOn : Obligations.InvariantHoldsAtPowerOn := by
  refine ⟨fun c hw => inv_powerOn hw, inv_powerOn (by decide), fun c => ?registers, rfl⟩
  case registers =>
    exact ⟨powerOn_cfg c, powerOn_rsPhase c, powerOn_rsIndex c, powerOn_rsPending c, powerOn_rsResult c⟩

end Sys2Proof.Proofs
end

section
/-! SUPPORT. The form of the encoder's results (10_state R29). -/

namespace Sys2Proof.Machine

/-- The result of a command whose checks guard one message. -/
def OneMessageOrError (r : Result) : Prop := (∃ m, r = .messages [m]) ∨ ∃ e, r = .error e

theorem oneMessageOrError_messages (m : Message) : OneMessageOrError (.messages [m]) := .inl ⟨m, rfl⟩

/-- A check leaves the result or ends the command with its error. -/
theorem OneMessageOrError.require {r : Result} (h : OneMessageOrError r) (p : Bool) (e : DomainError) :
    OneMessageOrError (require p e r) := by
  obtain ⟨-, hr⟩ | ⟨-, hr⟩ := require_cases p e r <;> rw [hr]
  · exact h
  · exact .inr ⟨e, rfl⟩

theorem OneMessageOrError.lcdCheckText {r : Result} (h : OneMessageOrError r) (size : Nat) (off : Byte) (text : Text) :
    OneMessageOrError (lcdCheckText size off text r) :=
  (h.require _ _).require _ _

theorem OneMessageOrError.lcdCheckOffset {r : Result} (h : OneMessageOrError r) (size : Nat) (off : Byte) :
    OneMessageOrError (lcdCheckOffset size off r) :=
  h.require _ _

/-- Every command but SetTimeDisplay, HeaderFor and Reset is a chain of checks around one message. -/
theorem encoderResult_oneMessageOrError (c : Config) (i : Instr) (hheader : ∀ v, i ≠ .headerFor v)
    (htime : ∀ text, i ≠ .setTimeDisplay text) (hreset : i ≠ .reset) :
    ∃ r, encoderResult c i = some r ∧ OneMessageOrError r := by
  have one := oneMessageOrError_messages
  cases i with
  | setLED sw state => exact ⟨_, rfl, ((one _).require _ _).require _ _⟩
  | sendOff sw => exact ⟨_, rfl, (one _).require _ _⟩
  | sendOffVelocity sw vel => exact ⟨_, rfl, (one _).require _ _⟩
  | setFaderPos ch pos => exact ⟨_, rfl, ((one _).require _ _).require _ _⟩
  | setVPot ch mode led => exact ⟨_, rfl, ((one _).require _ _).require _ _⟩
  | setMeter ch level => exact ⟨_, rfl, ((one _).require _ _).require _ _⟩
  | setDigit digit char => exact ⟨_, rfl, (one _).require _ _⟩
  | setLCD offset text => exact ⟨_, rfl, ((one _).lcdCheckText _ _ _).lcdCheckOffset _ _⟩
  | setLCDXT offset text => exact ⟨_, rfl, ((one _).lcdCheckText _ _ _).lcdCheckOffset _ _⟩
  | setLCDC4 offset row text =>
    exact ⟨_, rfl, (((one _).lcdCheckText _ _ _).require _ _).lcdCheckOffset _ _⟩
  | setTimeDisplay text => exact absurd rfl (htime text)
  | headerFor variant => exact absurd rfl (hheader variant)
  | reset => exact absurd rfl hreset

/-- HeaderFor answers four bytes, or the error of an unknown variant. -/
theorem headerResult_form (c : Config) (variant : Byte) :
    (∃ bs, headerResult c variant = .bytes bs ∧ bs.length = 4) ∨ headerResult c variant = .error .variant := by
  unfold headerResult
  cases variantOf variant with
  | none => exact .inr rfl
  | some v => exact .inl ⟨headerROM c v, rfl, Config.length_header_bytes _⟩

theorem length_timeMessages_timeCells_le (text : Text) : (timeMessages 0 (timeCells text)).length ≤ 10 := by
  rw [length_timeMessages, length_timeCells]
  exact Nat.min_le_left _ _

end Sys2Proof.Machine

namespace Sys2Proof.Proofs

open Sys2Proof Sys2Proof.Machine

/-- Settles O24: HeaderFor and SetTimeDisplay have forms of their own; every other command answers one message or an
error. -/
theorem resultsHaveTheirForm : Obligations.ResultsHaveTheirForm := by
  intro i s hreset
  by_cases hheader : ∃ v, i = .headerFor v
  · obtain ⟨v, rfl⟩ := hheader
    refine ⟨_, exec_encoder _ s _ rfl, ?_⟩
    obtain ⟨bs, hbs, hlen⟩ | herr := headerResult_form s.cfg v
    · exact .inr (.inl ⟨v, bs, rfl, hbs, hlen⟩)
    · exact .inl ⟨_, herr⟩
  by_cases htime : ∃ text, i = .setTimeDisplay text
  · obtain ⟨text, rfl⟩ := htime
    exact ⟨_, exec_encoder _ s _ rfl, .inr (.inr (.inl ⟨text, _, rfl, rfl, length_timeMessages_timeCells_le text⟩))⟩
  rw [not_exists] at hheader htime
  obtain ⟨r, hr, ⟨m, rfl⟩ | herr⟩ := encoderResult_oneMessageOrError s.cfg i hheader htime hreset
  · exact ⟨_, exec_encoder i s _ hr, .inr (.inr (.inr ⟨m, hheader, htime, rfl⟩))⟩
  · exact ⟨r, exec_encoder i s r hr, .inl herr⟩

end Sys2Proof.Proofs
end

section
/-! SUPPORT. The framing of a record on the wire (20_memory R48, 30_encoding R90 to R94), and another sender's message
(20_memory R54). -/

namespace Sys2Proof.Machine

/-- How many bytes a record takes on the wire (20_memory R48). -/
def wireLength : Message → Nat
  | .chanPressure _ _ => 2
  | .sysEx payload => payload.length + 2
  | _ => 3

/-- The bytes begin with a status byte and are `n` in all. -/
def Framed (n : Nat) (bytes : List Byte) : Prop :=
  ∃ status data, bytes = status :: data ∧ 0x80 ≤ status.toNat ∧ data.length + 1 = n

theorem Framed.length_eq {n : Nat} {bytes : List Byte} (h : Framed n bytes) : bytes.length = n := by
  obtain ⟨status, data, rfl, -, hn⟩ := h
  exact hn

/-- The bus is or'd into the low bits: the nibble of the message type stays. -/
theorem le_toNat_statusByte (kind : Byte) (ch : Bus) : kind.toNat ≤ (statusByte kind ch).toNat := by
  rw [statusByte, BitVec.toNat_or]
  exact Nat.left_le_or

/-- A channel-voice record whose data fields pass their check is framed by its status byte. -/
theorem framed_channelVoice {p : Prop} [Decidable p] {kind : Byte} {ch : Bus} {data bytes : List Byte}
    (hkind : 0x80 ≤ kind.toNat) (h : (if p then some (statusByte kind ch :: data) else none) = some bytes) :
    Framed (data.length + 1) bytes := by
  obtain ⟨-, hbytes⟩ := Option.ite_none_right_eq_some.1 h
  exact ⟨statusByte kind ch, data, (Option.some.inj hbytes).symm, hkind.trans (le_toNat_statusByte kind ch), rfl⟩

theorem framed_sysEx (payload : List Byte) : Framed (payload.length + 2) ([0xF0] ++ payload ++ [0xF7]) :=
  ⟨0xF0, payload ++ [0xF7], rfl, by decide, by rw [List.length_append, List.length_singleton]⟩

/-- Every record with a reference serialization is framed, at its own length. -/
theorem framed_of_serialize {m : Message} {bytes : List Byte} (h : serialize m = some bytes) :
    Framed (wireLength m) bytes := by
  cases m with
  | noteOff ch key vel => exact framed_channelVoice (by decide) (serialize_noteOff ch key vel ▸ h)
  | noteOn ch key vel => exact framed_channelVoice (by decide) (serialize_noteOn ch key vel ▸ h)
  | cc ch ctrl val => exact framed_channelVoice (by decide) (serialize_cc ch ctrl val ▸ h)
  | chanPressure ch val => exact framed_channelVoice (by decide) (serialize_chanPressure ch val ▸ h)
  | pitchBend ch bend => exact framed_channelVoice (by decide) (serialize_pitchBend ch bend ▸ h)
  | sysEx payload => exact Option.some.inj h ▸ framed_sysEx payload

/-- Every record but a channel pressure and a SysEx takes three bytes. -/
theorem wireLength_eq_three {m : Message} (hpressure : ∀ ch val, m ≠ .chanPressure ch val)
    (hsysEx : ∀ payload, m ≠ .sysEx payload) : wireLength m = 3 := by
  cases m with
  | chanPressure ch val => exact absurd rfl (hpressure ch val)
  | sysEx payload => exact absurd rfl (hsysEx payload)
  | _ => rfl

/-- No running status: a record's bytes stand whole in the bytes of any sequence that holds it (30_encoding R94). -/
theorem wireStream_of_serialize {m : Message} {bytes : List Byte} (h : serialize m = some bytes)
    (before after : List Message) :
    wireStream (before ++ m :: after) = wireStream before ++ bytes ++ wireStream after := by
  rw [wireStream_append, wireStream_cons, wireBytes_of_serialize h, List.append_assoc]

/-- The sequencer's traffic does not hold another sender's message. -/
theorem sequencerActions_onTransport_callerSent (m : Message) (s : State) :
    sequencerActions (onTransport (.callerSent m) s).transport = sequencerActions s.transport :=
  (sequencerActions_append _ _).trans (List.append_nil _)

end Sys2Proof.Machine

namespace Sys2Proof.Proofs

open Sys2Proof Sys2Proof.Machine

/-- Settles O59: a serialized record is framed at its `wireLength`, and the stream concatenates the records' bytes. -/
theorem messageLengths : Obligations.MessageLengths := by
  intro m bytes h
  have hframed := framed_of_serialize h
  have hlen := hframed.length_eq
  obtain ⟨status, data, hbytes, hstatus, -⟩ := hframed
  refine ⟨?pressure, ?sysEx, ?others, wireBytes_of_serialize h, ⟨status, data, hbytes, hstatus⟩,
    wireStream_of_serialize h, wireStream_nil⟩
  case pressure =>
    rintro ch val rfl
    exact hlen
  case sysEx =>
    rintro payload rfl
    exact hlen
  case others =>
    intro hpressure hsysEx
    exact hlen.trans (wireLength_eq_three hpressure hsysEx)

/-- Settles O53: the step takes the message, whose one event on the port is not the sequencer's. -/
theorem otherSendersInterleave : Obligations.OtherSendersInterleave := by
  intro s m rest hw hi
  exact ⟨_, step_input s _ rest hw hi, rfl, sequencerActions_onTransport_callerSent m { s with inputs := rest }⟩

end Sys2Proof.Proofs
end

section
/-! SUPPORT. Command frames (30_encoding part 1): the decoder and the encoder are inverse to each other, a legal opcode
decodes exactly at its format's length, and what a step answers to a frame that decodes to nothing. -/

namespace Sys2Proof

/-! ### Decoding and encoding -/

theorem map_readText_eq_some {counted : List Byte} {mk : Text → Instr} {i : Instr} :
    (readText counted).map mk = some i ↔ ∃ text, Text.wf text = true ∧ counted = writeText text ∧ mk text = i := by
  simp only [Option.map_eq_some_iff, readText_eq_some, and_assoc]

/-- The operand bytes of a well-formed command are read back. -/
theorem decode_encode {i : Instr} (hw : i.wf = true) : decode (encode i) = .ok i := by
  rw [decode_eq_ok]
  cases i with
  | setLED sw state => exact ⟨.setLED, _, rfl, rfl⟩
  | sendOff sw => exact ⟨.sendOff, _, rfl, rfl⟩
  | sendOffVelocity sw vel => exact ⟨.sendOffVelocity, _, rfl, rfl⟩
  | setFaderPos ch pos =>
    exact ⟨.setFaderPos, _, rfl, congrArg (fun p => some (Instr.setFaderPos ch p)) (positionOf_low_high pos)⟩
  | setVPot ch mode led => exact ⟨.setVPot, _, rfl, rfl⟩
  | setMeter ch level => exact ⟨.setMeter, _, rfl, rfl⟩
  | setDigit digit char => exact ⟨.setDigit, _, rfl, rfl⟩
  | setTimeDisplay text => exact ⟨.setTimeDisplay, _, rfl, map_readText_eq_some.2 ⟨text, hw, rfl, rfl⟩⟩
  | setLCD offset text => exact ⟨.setLCD, _, rfl, map_readText_eq_some.2 ⟨text, hw, rfl, rfl⟩⟩
  | setLCDXT offset text => exact ⟨.setLCDXT, _, rfl, map_readText_eq_some.2 ⟨text, hw, rfl, rfl⟩⟩
  | setLCDC4 offset row text => exact ⟨.setLCDC4, _, rfl, map_readText_eq_some.2 ⟨text, hw, rfl, rfl⟩⟩
  | headerFor variant => exact ⟨.headerFor, _, rfl, rfl⟩
  | reset => exact ⟨.reset, _, rfl, rfl⟩

/-- What a format reads is a well-formed command whose frame is the bytes read. -/
theorem encode_of_readOperands {o : Opcode} {operands : List Byte} {i : Instr} (h : readOperands o operands = some i) :
    i.wf = true ∧ encode i = opcodeByte o :: operands := by
  cases o <;> simp only [readOperands] at h
  case setTimeDisplay =>
    obtain ⟨text, hw, rfl, rfl⟩ := map_readText_eq_some.1 h
    exact ⟨hw, rfl⟩
  case setLCD | setLCDXT | setLCDC4 =>
    split at h
    · obtain ⟨text, hw, rfl, rfl⟩ := map_readText_eq_some.1 h
      exact ⟨hw, rfl⟩
    · cases h
  case setFaderPos =>
    split at h
    · cases h
      exact ⟨rfl, by rw [encode, positionLow_positionOf, positionHigh_positionOf]⟩
    · cases h
  all_goals
    split at h
    · cases h
      exact ⟨rfl, rfl⟩
    · cases h

/-- The frames that decode to a command are its own frame, when it has one (30_encoding R60, R65). -/
theorem decode_eq_ok_iff (f : Frame) (i : Instr) : decode f = .ok i ↔ i.wf = true ∧ encode i = f := by
  constructor
  · rw [decode_eq_ok]
    rintro ⟨o, operands, rfl, hr⟩
    exact encode_of_readOperands hr
  · rintro ⟨hw, rfl⟩
    exact decode_encode hw

/-! ### Lengths -/

/-- A length byte that counts the bytes after it is read with them. -/
theorem readText_of_length {n : Byte} {text : Text} (h : text.length = n.toNat) : readText (n :: text) = some text :=
  if_pos h

theorem encodeShape (i : Instr) : Laws.EncodeShape.Statement i := by
  cases i with
  | setLED sw state => exact Laws.EncodeShape.setLED sw state
  | sendOff sw => exact Laws.EncodeShape.sendOff sw
  | sendOffVelocity sw vel => exact Laws.EncodeShape.sendOffVelocity sw vel
  | setFaderPos ch pos => exact Laws.EncodeShape.setFaderPos ch pos
  | setVPot ch mode led => exact Laws.EncodeShape.setVPot ch mode led
  | setMeter ch level => exact Laws.EncodeShape.setMeter ch level
  | setDigit digit char => exact Laws.EncodeShape.setDigit digit char
  | setTimeDisplay text => exact Laws.EncodeShape.setTimeDisplay text
  | setLCD offset text => exact Laws.EncodeShape.setLCD offset text
  | setLCDXT offset text => exact Laws.EncodeShape.setLCDXT offset text
  | setLCDC4 offset row text => exact Laws.EncodeShape.setLCDC4 offset row text
  | headerFor variant => exact Laws.EncodeShape.headerFor variant
  | reset => exact Laws.EncodeShape.reset

/-- A frame whose operands are read has the length that its opcode's format gives. -/
theorem frameLength_of_readOperands {o : Opcode} {operands : List Byte} {i : Instr}
    (h : readOperands o operands = some i) :
    frameLength (formatOf o) (opcodeByte o :: operands) = some (opcodeByte o :: operands).length := by
  obtain ⟨hw, he⟩ := encode_of_readOperands h
  obtain ⟨o', ho, hl⟩ := encodeShape i hw
  rw [he] at ho hl
  obtain rfl : o = o' := Option.some.inj ((opcodeOf_opcodeByte o).symm.trans ho)
  exact hl

/-- A format without a text gives its frames one length. -/
theorem length_of_fixed {fmt : Format} {op : Byte} {operands : List Byte} (ht : carriesText fmt = false)
    (h : frameLength fmt (op :: operands) = some (op :: operands).length) :
    operands.length + 1 = fixedLength fmt := by
  rw [frameLength, ht, if_neg Bool.false_ne_true] at h
  exact (Option.some.inj h).symm

/-- A format with a text gives `k` operand bytes, the length byte, and as many bytes as that counts. -/
theorem counted_of_length {fmt : Format} {op : Byte} {operands : List Byte} {k : Nat} (ht : carriesText fmt = true)
    (hk : fixedLength fmt = k + 2) (h : frameLength fmt (op :: operands) = some (op :: operands).length) :
    ∃ (fixed : List Byte) (n : Byte) (text : Text),
      operands = fixed ++ n :: text ∧ fixed.length = k ∧ text.length = n.toNat := by
  rw [frameLength, if_pos ht, hk, Option.map_eq_some_iff] at h
  obtain ⟨n, hn, hlen⟩ := h
  obtain ⟨hlt, rfl⟩ := List.getElem?_eq_some_iff.1 (show operands[k]? = some n from hn)
  refine ⟨operands.take k, operands[k], operands.drop (k + 1), ?split, ?fixed, ?text⟩
  case split => rw [← List.drop_eq_getElem_cons hlt, List.take_append_drop]
  case fixed => exact List.length_take_of_le hlt.le
  case text =>
    rw [List.length_cons] at hlen
    rw [List.length_drop]
    omega

/-- Operand bytes in the number that the format gives are read. -/
theorem readOperands_of_length {o : Opcode} {op : Byte} {operands : List Byte}
    (h : frameLength (formatOf o) (op :: operands) = some (op :: operands).length) :
    ∃ i, readOperands o operands = some i := by
  cases o
  case reset =>
    obtain rfl := List.length_eq_zero_iff.1 (Nat.succ.inj (length_of_fixed rfl h))
    exact ⟨_, rfl⟩
  case sendOff | headerFor =>
    obtain ⟨a, rfl⟩ := List.length_eq_one_iff.1 (Nat.succ.inj (length_of_fixed rfl h))
    exact ⟨_, rfl⟩
  case setLED | sendOffVelocity | setMeter | setDigit =>
    obtain ⟨a, b, rfl⟩ := List.length_eq_two.1 (Nat.succ.inj (length_of_fixed rfl h))
    exact ⟨_, rfl⟩
  case setFaderPos | setVPot =>
    obtain ⟨a, b, d, rfl⟩ := List.length_eq_three.1 (Nat.succ.inj (length_of_fixed rfl h))
    exact ⟨_, rfl⟩
  case setTimeDisplay =>
    obtain ⟨fixed, n, text, rfl, hf, hn⟩ := counted_of_length rfl rfl h
    obtain rfl := List.length_eq_zero_iff.1 hf
    exact ⟨_, congrArg (Option.map _) (readText_of_length hn)⟩
  case setLCD | setLCDXT =>
    obtain ⟨fixed, n, text, rfl, hf, hn⟩ := counted_of_length rfl rfl h
    obtain ⟨a, rfl⟩ := List.length_eq_one_iff.1 hf
    exact ⟨_, congrArg (Option.map _) (readText_of_length hn)⟩
  case setLCDC4 =>
    obtain ⟨fixed, n, text, rfl, hf, hn⟩ := counted_of_length rfl rfl h
    obtain ⟨a, b, rfl⟩ := List.length_eq_two.1 hf
    exact ⟨_, congrArg (Option.map _) (readText_of_length hn)⟩

/-! ### The decoder's outcomes on a frame with an opcode -/

theorem decode_of_length {op : Byte} {operands : List Byte} {o : Opcode} (ho : opcodeOf op = some o)
    (h : frameLength (formatOf o) (op :: operands) = some (op :: operands).length) :
    ∃ i, decode (op :: operands) = .ok i := by
  obtain ⟨i, hr⟩ := readOperands_of_length h
  exact ⟨i, (decode_eq_ok _ _).2 ⟨o, operands, by rw [(opcodeOf_eq_some op o).1 ho], hr⟩⟩

theorem decode_of_reserved {op : Byte} (operands : List Byte) (h : opcodeOf op = none) :
    decode (op :: operands) = .error (.illegalOpcode op) := by
  simp only [decode, h]

theorem decode_of_badLength {op : Byte} {operands : List Byte} {o : Opcode} (ho : opcodeOf op = some o)
    (h : frameLength (formatOf o) (op :: operands) ≠ some (op :: operands).length) :
    decode (op :: operands) = .error .badLength := by
  have hr : readOperands o operands = none := by
    rw [Option.eq_none_iff_forall_ne_some]
    intro i hi
    obtain rfl := (opcodeOf_eq_some op o).1 ho
    exact h (frameLength_of_readOperands hi)
  simp only [decode, ho, hr]

end Sys2Proof

namespace Sys2Proof.Machine

/-- A frame that encodes no command is answered with its domain error, and nothing else changes. -/
theorem step_of_decode_error {s : State} {f : Frame} {rest : List Input} {e : DecodeError} (hw : s.cfg.wf = true)
    (hi : s.inputs = .frame f :: rest) (hd : decode f = .error e) :
    step s = .next { s with inputs := rest, results := s.results ++ [.error (frameError e)] } := by
  rw [step_input s _ rest hw hi]
  simp only [takeInput, acceptFrame, hd]
  rfl

end Sys2Proof.Machine

namespace Sys2Proof.Proofs

open Sys2Proof Sys2Proof.Machine

/-- Settles O3: each command's operand bytes are read back, a text by its length byte, a position by its two bytes. -/
theorem decodeInvertsEncode : Obligations.DecodeInvertsEncode :=
  fun _ hw => decode_encode hw

/-- Settles O4: what a format reads, the encoder writes. -/
theorem decodedFramesAreCanonical : Obligations.DecodedFramesAreCanonical :=
  fun f i h => (decode_eq_ok_iff f i).1 h

/-- Settles O5: each frame is the encoding of its command. -/
theorem writtenOutFramesDecode : Obligations.WrittenOutFramesDecode := by
  refine ⟨?_, ?_, ?_, ?_, ?_, ?_, ?_, ?_, ?_, ?_, ?_, ?_, ?_⟩
  all_goals exact (decode_eq_ok_iff _ _).2 ⟨rfl, rfl⟩

/-- Settles O2: an ill-formed frame decodes to its error, and the step answers that; a legal opcode with its format's
length has operands to read. -/
theorem illFormedFramesReturnTheirError : Obligations.IllFormedFramesReturnTheirError := by
  intro s f rest hw hi
  refine ⟨?empty, ?reserved, ?badLength, ?legal⟩
  case empty =>
    rintro rfl
    exact step_of_decode_error hw hi rfl
  case reserved =>
    rintro op operands rfl hop
    exact step_of_decode_error hw hi (decode_of_reserved operands ((opcodeOf_eq_none op).2 hop))
  case badLength =>
    rintro op operands o rfl ho hl
    exact step_of_decode_error hw hi (decode_of_badLength ho hl)
  case legal =>
    rintro op operands o rfl ho hl
    exact decode_of_length ho hl

end Sys2Proof.Proofs
end

section
/-! SUPPORT. The assembler's lines (30_encoding R68): each mnemonic's line is read with its operands' values, in the
number of operands that it has. -/

namespace Sys2Proof.Machine

/-! ### Mnemonics and their numbers of operands -/

/-- The mnemonic of an opcode (30_encoding R61). -/
def mnemonicOf : Opcode → String
  | .setLED => "SetLED"
  | .sendOff => "SendOff"
  | .sendOffVelocity => "SendOffVelocity"
  | .setFaderPos => "SetFaderPos"
  | .setVPot => "SetVPot"
  | .setMeter => "SetMeter"
  | .setDigit => "SetDigit"
  | .setTimeDisplay => "SetTimeDisplay"
  | .setLCD => "SetLCD"
  | .setLCDXT => "SetLCDXT"
  | .setLCDC4 => "SetLCDC4"
  | .headerFor => "HeaderFor"
  | .reset => "Reset"

/-- How many operands the line of an opcode's mnemonic has (30_encoding R68). -/
def operandCountOf : Opcode → Nat
  | .reset => 0
  | .sendOff | .setTimeDisplay | .headerFor => 1
  | .setLED | .sendOffVelocity | .setFaderPos | .setMeter | .setDigit | .setLCD | .setLCDXT => 2
  | .setVPot | .setLCDC4 => 3

/-- The assembler's table has every mnemonic. -/
theorem lookup_mnemonicOf (op : Opcode) : mnemonics.lookup (mnemonicOf op).toList = some op := by
  cases op <;> rfl

theorem mem_operandCounts_iff {name : String} {k : Nat} :
    (name, k) ∈ operandCounts ↔ ∃ op, name = mnemonicOf op ∧ k = operandCountOf op := by
  constructor
  · have table : operandCounts = (mnemonics.map Prod.snd).map fun op => (mnemonicOf op, operandCountOf op) := by rfl
    rw [table, List.mem_map]
    rintro ⟨op, -, h⟩
    obtain ⟨rfl, rfl⟩ := Prod.mk.inj h
    exact ⟨op, rfl, rfl⟩
  · rintro ⟨op, rfl, rfl⟩
    cases op <;> simp [operandCounts, mnemonicOf, operandCountOf]

theorem mnemonicOf_oneWord (op : Opcode) : OneWord (mnemonicOf op).toList :=
  operandCounts_oneWord (mem_operandCounts_iff.2 ⟨op, rfl, rfl⟩)

/-- Every variant name is one operand. -/
theorem variantNames_piece {w : List Char} (h : w ∈ variantNames.map Prod.fst) : Piece w := by
  have all : (variantNames.map Prod.fst).all isOneWord = true := by rfl
  exact ((isOneWord_iff w).1 (List.all_eq_true.1 all w h)).piece

/-! ### Reading a line -/

/-- The line of a mnemonic is read as its opcode's command with the operands of the line. -/
theorem assembleLine_mnemonicOf (c : Config) (op : Opcode) (ws : List (List Char)) (h : ∀ w ∈ ws, Piece w) :
    assembleLine c (lineOf (mnemonicOf op) ws) = readCommand c op ws := by
  rw [assembleLine_lineOf c _ ws (mnemonicOf_oneWord op) h, lookup_mnemonicOf]

theorem assembleLine_of_readCommand {c : Config} {op : Opcode} {ws : List (List Char)} {i : Instr}
    (h : ∀ w ∈ ws, Piece w) (hr : readCommand c op ws = some i) :
    assembleLine c (lineOf (mnemonicOf op) ws) = some i :=
  (assembleLine_mnemonicOf c op ws h).trans hr

/-- A command is read only from as many operands as its line has. -/
theorem length_of_readCommand {c : Config} {op : Opcode} {ws : List (List Char)} {i : Instr}
    (h : readCommand c op ws = some i) : ws.length = operandCountOf op := by
  unfold readCommand at h
  split at h
  case h_14 => cases h
  all_goals rfl

/-- The frame of a line is the frame of the command that the line names. -/
theorem assembleFrame_eq_some {c : Config} {line : List Char} {f : Frame} (h : assembleFrame c line = some f) :
    ∃ i, assembleLine c line = some i ∧ i.wf = true ∧ encode i = f := by
  unfold assembleFrame at h
  split at h
  · rename_i i hi
    obtain ⟨hw, he⟩ := Option.ite_none_right_eq_some.1 h
    exact ⟨i, hi, hw, Option.some.inj he⟩
  · cases h

end Sys2Proof.Machine

namespace Sys2Proof.Proofs

open Sys2Proof Sys2Proof.Machine

/-- Settles O6: a line splits into its mnemonic and its operands, each operand is read as what it writes, and a frame
decodes because the decoder inverts the encoder. -/
theorem assemblerReadsItsLines : Obligations.AssemblerReadsItsLines := by
  intro c
  refine ⟨?operands, ?std, ?xt, ?c4, ?reset, ?counts, ?frames⟩
  case operands =>
    intro a b d q m n p text ha hb hd hq hm hp
    have ra := readByte_of_writes ha hm
    have rd := readByte_of_writes hd hp
    have rq := readQuoted_of_quotes hq
    have pa := ha.oneWord.piece
    have pb := hb.oneWord.piece
    have pd := hd.oneWord.piece
    have pq := hq.piece
    have pieces₁ : ∀ w ∈ [a], Piece w := by simp [pa]
    have pieces₂ : ∀ w ∈ [a, b], Piece w := by simp [pa, pb]
    have piecesText : ∀ w ∈ [a, q], Piece w := by simp [pa, pq]
    refine ⟨fun hn => ?position, fun hn => ?bytes, ?sendOff, ?time, ?lcd, ?lcdXT⟩
    case position =>
      exact assembleLine_of_readCommand (op := .setFaderPos) pieces₂
        (by simp [readCommand, ra, readPosition_of_writes hb hn])
    case bytes =>
      have rb := readByte_of_writes hb hn
      refine ⟨?led, ?velocity, ?vpot, ?meter, ?digit, ?lcdC4⟩
      case led => exact assembleLine_of_readCommand (op := .setLED) pieces₂ (by simp [readCommand, ra, rb])
      case velocity =>
        exact assembleLine_of_readCommand (op := .sendOffVelocity) pieces₂ (by simp [readCommand, ra, rb])
      case vpot =>
        exact assembleLine_of_readCommand (op := .setVPot) (by simp [pa, pb, pd]) (by simp [readCommand, ra, rb, rd])
      case meter => exact assembleLine_of_readCommand (op := .setMeter) pieces₂ (by simp [readCommand, ra, rb])
      case digit => exact assembleLine_of_readCommand (op := .setDigit) pieces₂ (by simp [readCommand, ra, rb])
      case lcdC4 =>
        exact assembleLine_of_readCommand (op := .setLCDC4) (by simp [pa, pb, pq]) (by simp [readCommand, ra, rb, rq])
    case sendOff => exact assembleLine_of_readCommand (op := .sendOff) pieces₁ (by simp [readCommand, ra])
    case time => exact assembleLine_of_readCommand (op := .setTimeDisplay) (by simp [pq]) (by simp [readCommand, rq])
    case lcd => exact assembleLine_of_readCommand (op := .setLCD) piecesText (by simp [readCommand, ra, rq])
    case lcdXT => exact assembleLine_of_readCommand (op := .setLCDXT) piecesText (by simp [readCommand, ra, rq])
  case std => exact assembleLine_of_readCommand (op := .headerFor) (by simp [variantNames_piece, variantNames]) rfl
  case xt => exact assembleLine_of_readCommand (op := .headerFor) (by simp [variantNames_piece, variantNames]) rfl
  case c4 => exact assembleLine_of_readCommand (op := .headerFor) (by simp [variantNames_piece, variantNames]) rfl
  case reset => exact assembleLine_of_readCommand (op := .reset) (List.forall_mem_nil _) rfl
  case counts =>
    intro name k ws hk hws hne
    obtain ⟨op, rfl, rfl⟩ := mem_operandCounts_iff.1 hk
    rw [assembleLine_mnemonicOf c op ws fun w hw => (hws w hw).piece, Option.eq_none_iff_forall_ne_some]
    exact fun i hi => hne (length_of_readCommand hi)
  case frames =>
    intro line f h
    obtain ⟨i, hi, hw, rfl⟩ := assembleFrame_eq_some h
    exact ⟨i, hi, hw, decode_encode hw⟩

end Sys2Proof.Proofs
end

section
/-! SUPPORT. The wire form of the records (30_encoding part 4), and which bytes the encoder puts into a SysEx payload. -/

namespace Sys2Proof.Machine

/-! ### The pitch-bend word -/

/-- A 14-bit word is recovered from its two 7-bit bytes, low one first. -/
theorem byteOf_low_high {u : Nat} (hu : u < 2 ^ 14) :
    (byteOf (u % 128)).toNat = u &&& 0x7F ∧ (byteOf (u / 128 % 128)).toNat = (u >>> 7) &&& 0x7F ∧
      (byteOf (u % 128)).toNat + 128 * (byteOf (u / 128 % 128)).toNat = u := by
  rw [byteOf_toNat _ (by omega), byteOf_toNat _ (by omega), Nat.shiftRight_eq_div_pow]
  exact ⟨(Nat.and_two_pow_sub_one_eq_mod u 7).symm, (Nat.and_two_pow_sub_one_eq_mod (u / 2 ^ 7) 7).symm, by omega⟩

/-! ### The messages of a result -/

/-- Every message that the result holds has the property `p`. -/
def Sends (p : Message → Prop) (r : Result) : Prop := ∀ ms, r = .messages ms → ∀ m ∈ ms, p m

/-- The payload bytes of a SysEx record are at most 0x7F (30_encoding R92). -/
def SevenBitPayload (m : Message) : Prop := ∀ payload, m = .sysEx payload → ∀ b ∈ payload, b.toNat ≤ 0x7F

variable {p : Message → Prop} {r : Result}

theorem sends_messages {ms : List Message} (h : ∀ m ∈ ms, p m) : Sends p (.messages ms) := by
  intro ms' e
  cases e
  exact h

theorem sends_one {m : Message} (h : p m) : Sends p (.messages [m]) :=
  sends_messages (List.forall_mem_singleton.2 h)

theorem sends_bytes (bs : List Byte) : Sends p (.bytes bs) := nofun

theorem sends_error (e : DomainError) : Sends p (.error e) := nofun

/-- What is sent after a check is sent under its condition. -/
theorem sends_require {b : Bool} {e : DomainError} (h : b = true → Sends p r) : Sends p (require b e r) := by
  obtain ⟨hb, hr⟩ | ⟨-, hr⟩ := require_cases b e r <;> rw [hr]
  · exact h hb
  · exact sends_error e

theorem sends_lcdCheckOffset {size : Nat} {off : Byte} (h : off.toNat < size → Sends p r) :
    Sends p (lcdCheckOffset size off r) :=
  sends_require fun ho => h ((lcdOffsetOk_iff size off).1 ho)

theorem sends_lcdCheckText {size : Nat} {off : Byte} {text : Text} (h : (∀ b ∈ text, b.toNat ≤ 0x7F) → Sends p r) :
    Sends p (lcdCheckText size off text r) :=
  sends_require fun _ => sends_require fun ht => h ((textOk_iff text).1 ht)

/-! ### The encoder's SysEx payloads -/

theorem sevenBitPayload_of_mem_timeMessages {k : Nat} {bs : List Byte} {m : Message} (h : m ∈ timeMessages k bs) :
    SevenBitPayload m := by
  obtain ⟨j, hj⟩ := List.mem_iff_getElem?.1 h
  rw [getElem?_timeMessages, Option.map_eq_some_iff] at hj
  obtain ⟨b, -, rfl⟩ := hj
  nofun

/-- An LCD payload is header, frame byte, offset and text, each of them data bytes: the offset because no display is
larger than 128 (00_scope R8). -/
theorem sevenBitPayload_lcdPayload {c : Config} (hw : c.wf = true) {v : Variant} {fb off : Byte} {text : Text}
    (hfb : fb.toNat ≤ 0x7F) (ho : off.toNat < c.lcdSize v) (ht : ∀ b ∈ text, b.toNat ≤ 0x7F) :
    SevenBitPayload (.sysEx (lcdPayload c v fb off text)) := by
  intro payload e b hb
  cases e
  obtain ⟨-, hsize, -⟩ := Config.wf_displays hw
  obtain hb | rfl | rfl | hb := (mem_lcdPayload c v fb off b text).1 hb
  · exact Config.wf_header hw v b hb
  · exact hfb
  · exact Nat.le_of_lt_succ (ho.trans_le (hsize v).2)
  · exact ht b hb

/-- Only the LCD commands send SysEx, and their checks leave data bytes. -/
theorem encoderResult_sevenBit {c : Config} (hw : c.wf = true) {i : Instr} (h : encoderResult c i = some r) :
    Sends SevenBitPayload r := by
  have hframe := (Config.wf_displays hw).1
  cases i <;> cases h
  case setLED => exact sends_require fun _ => sends_require fun _ => sends_one nofun
  case sendOff => exact sends_require fun _ => sends_one nofun
  case sendOffVelocity => exact sends_require fun _ => sends_one nofun
  case setFaderPos => exact sends_require fun _ => sends_require fun _ => sends_one nofun
  case setVPot => exact sends_require fun _ => sends_require fun _ => sends_one nofun
  case setMeter => exact sends_require fun _ => sends_require fun _ => sends_one nofun
  case setDigit => exact sends_require fun _ => sends_one nofun
  case setTimeDisplay => exact sends_messages fun _ => sevenBitPayload_of_mem_timeMessages
  case setLCD =>
    exact sends_lcdCheckOffset fun ho => sends_lcdCheckText fun ht =>
      sends_one (sevenBitPayload_lcdPayload hw hframe ho ht)
  case setLCDXT =>
    exact sends_lcdCheckOffset fun ho => sends_lcdCheckText fun ht =>
      sends_one (sevenBitPayload_lcdPayload hw hframe ho ht)
  case setLCDC4 offset row text =>
    refine sends_lcdCheckOffset fun ho => sends_require fun hr => sends_lcdCheckText fun ht =>
      sends_one (sevenBitPayload_lcdPayload hw ?_ ho ht)
    obtain ⟨hrow, hle⟩ := rowByte_toNat c row hw ((rowOk_iff c row).1 hr)
    exact hrow.trans_le hle
  case headerFor variant =>
    obtain ⟨bs, hr, -⟩ | hr := headerResult_form c variant <;> rw [hr]
    · exact sends_bytes bs
    · exact sends_error _

/-- A command that answers is not Reset, and its answer is its encoder result. -/
theorem encoderResult_of_answersWith {i : Instr} {s : State} (h : AnswersWith i s r) :
    encoderResult s.cfg i = some r := by
  obtain ⟨r', hr', -⟩ | ⟨-, -, he⟩ | ⟨-, -, he⟩ := exec_cases i s
  · rw [hr', (answersWith_iff i s r' r hr').1 h]
  -- Starting a Reset and holding one leave the result port as it was.
  all_goals
    have e := congrArg State.results (Host.Outcome.next.inj (he.symm.trans h))
    simp at e

end Sys2Proof.Machine

namespace Sys2Proof.Proofs

open Sys2Proof Sys2Proof.Machine

/-- Settles O56: each record's own serialization, its data fields within 0x7F or not. -/
theorem channelVoiceSerialization : Obligations.ChannelVoiceSerialization := by
  intro ch a b
  simp only [serialize_noteOff, serialize_noteOn, serialize_cc, serialize_chanPressure]
  refine ⟨fun ha hb => ?bytes, fun ha => ?pressure, fun h => ?above, fun ha => ?pressureAbove⟩
  case bytes =>
    have hab : a.toNat ≤ 0x7F ∧ b.toNat ≤ 0x7F := ⟨ha, hb⟩
    exact ⟨if_pos hab, if_pos hab, if_pos hab⟩
  case pressure => exact if_pos ha
  case above =>
    have hab : ¬(a.toNat ≤ 0x7F ∧ b.toNat ≤ 0x7F) := by omega
    exact ⟨if_neg hab, if_neg hab, if_neg hab⟩
  case pressureAbove => exact if_neg (by omega)

/-- Settles O57: the word has 14 bits, and its two bytes are its low and high seven. -/
theorem pitchBendSerializationIsLossless : Obligations.PitchBendSerializationIsLossless := by
  intro ch bend hlo hhi
  have hu : ((bend + 8192).toNat : Int) = bend + 8192 := Int.toNat_of_nonneg (by omega)
  refine ⟨(bend + 8192).toNat, _, _, hu, by omega, by omega, ?serialized, byteOf_low_high (by omega)⟩
  case serialized =>
    rw [serialize_pitchBend]
    exact if_pos ⟨by omega, by omega⟩

/-- Settles O58: a SysEx record that a command answers is an LCD command's, whose checks leave data bytes. -/
theorem sysExPayloadsAreSevenBit : Obligations.SysExPayloadsAreSevenBit := by
  refine ⟨serialize_sysEx, ?payload⟩
  case payload =>
    intro s i ms payload hw h hm
    exact encoderResult_sevenBit hw (encoderResult_of_answersWith h) ms rfl _ hm payload rfl

end Sys2Proof.Proofs
end

section
/-! SUPPORT. The header registry (41_header_registry R100, R102). -/

namespace Sys2Proof.Config

/-- A well-formed configuration gives each variant a header of its own. -/
theorem wf_header_injective {c : Config} (hw : c.wf = true) {v w : Variant} (h : c.header v = c.header w) : v = w := by
  obtain ⟨-, hheaders, -⟩ := wf_parts hw
  exact ((headersOk_iff c).1 hheaders).2 v w h

end Sys2Proof.Config

namespace Sys2Proof.Machine

theorem headerResult_of_variant (c : Config) {b : Byte} {v : Variant} (h : variantOf b = some v) :
    headerResult c b = .bytes (c.header v).bytes := by
  simp only [headerResult, h, headerROM]

theorem headerResult_of_no_variant (c : Config) {b : Byte} (h : variantOf b = none) :
    headerResult c b = .error .variant := by
  simp only [headerResult, h]

theorem answersWith_headerFor_of_variant (s : State) {b : Byte} {v : Variant} (h : variantOf b = some v) :
    AnswersWith (.headerFor b) s (.bytes (s.cfg.header v).bytes) :=
  exec_encoder _ s _ (congrArg some (headerResult_of_variant s.cfg h))

theorem answersWith_headerFor_of_no_variant (s : State) {b : Byte} (h : variantOf b = none) :
    AnswersWith (.headerFor b) s (.error .variant) :=
  exec_encoder _ s _ (congrArg some (headerResult_of_no_variant s.cfg h))

/-- HeaderFor's format gives its frames two bytes. -/
theorem decode_headerFor_of_badLength {operands : List Byte} (h : operands.length ≠ 1) :
    decode (0x0C :: operands) = .error .badLength := by
  refine decode_of_badLength (o := .headerFor) rfl fun hl => h ?_
  exact Nat.succ.inj (length_of_fixed rfl hl)

end Sys2Proof.Machine

namespace Sys2Proof.Proofs

open Sys2Proof Sys2Proof.Machine

/-- Settles O21: the variant byte is 0, 1 or 2 and selects that variant's header, or it names no variant. -/
theorem headerForReturnsTheConfiguredHeader : Obligations.HeaderForReturnsTheConfiguredHeader := by
  intro s v
  refine ⟨?frame, fun _ => decode_headerFor_of_badLength, ?std, ?xt, ?c4, ?unknown, rfl⟩
  case frame => exact (decode_eq_ok_iff _ _).2 ⟨rfl, rfl⟩
  case std => exact answersWith_headerFor_of_variant s (v := .std) rfl
  case xt => exact answersWith_headerFor_of_variant s (v := .xt) rfl
  case c4 => exact answersWith_headerFor_of_variant s (v := .c4) rfl
  case unknown => exact fun hv => answersWith_headerFor_of_no_variant s ((variantOf_eq_none v).2 hv)

/-- Settles O22: the first four payload bytes are the variant's header, and the headers are distinct. -/
theorem headerIdentifiesTheVariant : Obligations.HeaderIdentifiesTheVariant := by
  intro c v w fv fw ov ow tv tw hw h
  rw [take_lcdPayload, take_lcdPayload] at h
  exact Config.wf_header_injective hw (Config.header_bytes_inj h)

end Sys2Proof.Proofs
end

section
/-! SUPPORT. The channel-voice encoders (42_channel_voice): each result as one chain of checks, the byte functions of
the digits and the strip, and the order of the strip's cells. -/

namespace Sys2Proof.Machine

/-- A command answers its encoder result, whatever form that result is given. -/
theorem answersWith_of_result {i : Instr} {s : State} {r r' : Result}
    (hi : encoderResult s.cfg i = some r) (h : r = r') : AnswersWith i s r' :=
  (answersWith_iff i s r r' hi).2 h

/-! ### The results as chains of checks (R110: in frame order) -/

theorem ledResult_eq (c : Config) (sw state : Byte) : ledResult c sw state =
    if sw.toNat < c.lenIDs then
      if state = c.stateOn ∨ state = c.stateOff then .messages [.noteOn 0 sw state] else .error .state
    else .error .switch := by
  simp only [ledResult, require, switchOk_iff, ledStateOk_iff]
  rfl

theorem offVelocityResult_eq (c : Config) (sw vel : Byte) : offVelocityResult c sw vel =
    if sw.toNat < c.lenIDs then .messages [.noteOff 0 sw vel] else .error .switch := by
  simp only [offVelocityResult, require, switchOk_iff]
  rfl

/-- SendOff is SendOffVelocity with velocity 0 (R112, R113). -/
theorem offResult_eq (c : Config) (sw : Byte) : offResult c sw = offVelocityResult c sw 0x00 := rfl

theorem faderResult_eq (ch : Byte) (pos : Word16) : faderResult ch pos =
    if ch.toNat ≤ 8 then
      if pos.toNat ≤ 16382 then .messages [.pitchBend (channelBus ch) ((pos.toNat : Int) - 8191)]
      else .error .position
    else .error .channel := by
  simp only [faderResult, require, channelOk_iff, positionOk_iff]
  rfl

theorem vpotResult_eq (ch mode led : Byte) : vpotResult ch mode led =
    if ch.toNat ≤ 8 then
      if mode.toNat + led.toNat ≤ 0xFF then
        .messages [.cc 0 (byteOf (0x30 + ch.toNat)) (byteOf (mode.toNat + led.toNat))]
      else .error .vpotSum
    else .error .channel := by
  simp only [vpotResult, require, channelOk_iff, vpotSumOk_iff]
  rfl

theorem meterResult_eq (ch level : Byte) : meterResult ch level =
    if ch.toNat ≤ 8 then
      if level.toNat < 16 then .messages [.chanPressure 0 (byteOf (ch.toNat * 2 ^ 4 + level.toNat))]
      else .error .level
    else .error .channel := by
  simp only [meterResult, require, channelOk_iff, levelOk_iff]
  rfl

theorem digitResult_eq (c : Config) (digit char : Byte) : digitResult c digit char =
    if digit.toNat < c.lenDigits then .messages [.cc 15 (byteOf (0x40 + digit.toNat)) (normChar char)]
    else .error .digit := by
  simp only [digitResult, require, digitOk_iff]
  rfl

/-! ### Buses and packed bytes -/

theorem channelBus_toNat {ch : Byte} (h : ch.toNat ≤ 8) : (channelBus ch).toNat = ch.toNat := by
  rw [channelBus, BitVec.toNat_ofNat]
  exact Nat.mod_eq_of_lt (by omega)

/-- The sum of a high nibble and a low one is their bitwise or (R121). -/
theorem byteOf_nibbles {ch level : Byte} (hch : ch.toNat ≤ 8) (hlevel : level.toNat < 16) :
    byteOf (ch.toNat * 2 ^ 4 + level.toNat) = (ch <<< 4) ||| level := by
  apply BitVec.eq_of_toNat_eq
  rw [byteOf_toNat _ (by omega), BitVec.toNat_or, BitVec.toNat_shiftLeft, Nat.shiftLeft_eq,
    Nat.mod_eq_of_lt (by omega : ch.toNat * 2 ^ 4 < 2 ^ 8), Nat.mul_comm, Nat.two_pow_add_eq_or_of_lt hlevel]

/-! ### Faders: position to bend (R115) -/

/-- In range, a fader command on Channel 0 answers one bend: the position minus 8191. -/
theorem answersWith_setFaderPos_zero_iff (s : State) {pos : Word16} (h : pos.toNat ≤ 16382) (bend : Int) :
    AnswersWith (.setFaderPos 0 pos) s (.messages [.pitchBend 0 bend]) ↔ (pos.toNat : Int) - 8191 = bend := by
  rw [answersWith_iff _ s _ _ rfl, faderResult_eq, if_pos (by decide), if_pos h]
  simp [channelBus]

/-! ### Characters (30_encoding R80, R81) -/

/-- The two ranges that NormChar moves (30_encoding R80). -/
def InShadowRange (v : Byte) : Prop := (0x40 ≤ v.toNat ∧ v.toNat ≤ 0x60) ∨ (0x80 ≤ v.toNat ∧ v.toNat ≤ 0xA0)

theorem normChar_of_shadow {v : Byte} (h : InShadowRange v) : normChar v = v - 0x40 :=
  if_pos (by simpa [InShadowRange] using h)

theorem normChar_of_not_shadow {v : Byte} (h : ¬InShadowRange v) : normChar v = v :=
  if_neg (by simpa [InShadowRange] using h)

theorem normChar_toNat_of_shadow {v : Byte} (h : InShadowRange v) : (normChar v).toNat = v.toNat - 0x40 := by
  rw [normChar_of_shadow h]
  obtain ⟨hlo, -⟩ | ⟨hlo, -⟩ := h
  · exact BitVec.toNat_sub_of_le hlo
  · exact BitVec.toNat_sub_of_le (le_trans (by decide) hlo)

theorem upper_toNat_of_lower {b : Byte} (hlo : 0x61 ≤ b.toNat) (hhi : b.toNat ≤ 0x7A) :
    (upper b).toNat = b.toNat - 0x20 := by
  rw [upper, if_pos (Bool.and_eq_true_iff.2 ⟨decide_eq_true hlo, decide_eq_true hhi⟩)]
  exact BitVec.toNat_sub_of_le (le_trans (by decide) hlo)

theorem upper_of_not_lower {b : Byte} (h : b.toNat ≤ 0x60 ∨ 0x7B ≤ b.toNat) : upper b = b :=
  if_neg (by rw [Bool.and_eq_true, decide_eq_true_eq, decide_eq_true_eq]; omega)

/-! ### The timecode strip (R126, R127) -/

/-- Cell `k` holds the `k`-th character from the end of the truncated text. -/
theorem getElem?_timeCells {text : Text} {k : Nat} (hk : k < min 10 text.length) :
    (timeCells text)[k]? = text[min 10 text.length - 1 - k]?.map fun b => normChar (upper b) := by
  have hlen : ((text.take 10).map upper).length = min 10 text.length := by simp
  rw [timeCells, Config.timeDisplayLen, List.getElem?_reverse (by simpa using hk), List.length_map, hlen,
    List.getElem?_map, List.getElem?_map, List.getElem?_take_of_lt (by omega), Option.map_map]
  rfl

end Sys2Proof.Machine

namespace Sys2Proof.Proofs

open Sys2Proof Sys2Proof.Machine

/-- Settles O11: in range the bend is the position minus 8191, so the position is the bend plus 8191. -/
theorem faderBendIsASymmetricBijection : Obligations.FaderBendIsASymmetricBijection := by
  intro s bend hlo hhi
  have hpos : (BitVec.ofNat 16 (bend + 8191).toNat).toNat = (bend + 8191).toNat := by
    rw [BitVec.toNat_ofNat]
    exact Nat.mod_eq_of_lt (by omega)
  generalize BitVec.ofNat 16 (bend + 8191).toNat = pos at hpos
  have hle : pos.toNat ≤ 16382 := by omega
  have hmirror : (16382 - pos).toNat = 16382 - pos.toNat := BitVec.toNat_sub_of_le hle
  refine ⟨pos, hle, ?bend, ?opposite, ?unique⟩
  case bend => exact (answersWith_setFaderPos_zero_iff s hle bend).2 (by omega)
  case opposite => exact (answersWith_setFaderPos_zero_iff s (by omega) (-bend)).2 (by omega)
  case unique =>
    intro pos' hle' h
    have hbend := (answersWith_setFaderPos_zero_iff s hle' bend).1 h
    exact BitVec.eq_of_toNat_eq (by omega)

/-- Settles O16: cell `k` of the strip is message `k`, and the two character functions move only their ranges. -/
theorem setTimeDisplayWritesRightToLeft : Obligations.SetTimeDisplayWritesRightToLeft := by
  intro s text
  refine ⟨?frame, timeMessages 0 (timeCells text), answersWith_of_result rfl rfl, ?count, ?cell,
    answersWith_of_result rfl rfl, fun b => ⟨upper_toNat_of_lower, upper_of_not_lower, normChar_toNat_of_shadow,
      normChar_of_not_shadow⟩, rfl, rfl, rfl, rfl⟩
  case frame => exact fun h => (decode_eq_ok_iff _ _).2 ⟨decide_eq_true h, rfl⟩
  case count => rw [length_timeMessages, length_timeCells]
  case cell =>
    intro k b hk hb
    refine ⟨byteOf (0x40 + k), byteOf_toNat _ (by omega), ?_⟩
    rw [getElem?_timeMessages, getElem?_timeCells hk, hb, Nat.zero_add]
    rfl

/-- Settles O7: the two checks of SetLED, passed or failed in order. -/
theorem setLEDLightsOneSwitch : Obligations.SetLEDLightsOneSwitch := by
  intro s sw state
  refine ⟨rfl, ?lit, ?badSwitch, ?badState, rfl⟩
  case lit => exact fun hsw hstate => answersWith_of_result rfl (by rw [ledResult_eq, if_pos hsw, if_pos hstate])
  case badSwitch => exact fun hsw => answersWith_of_result rfl (by rw [ledResult_eq, if_neg (Nat.not_lt.2 hsw)])
  case badState =>
    exact fun hsw hon hoff => answersWith_of_result rfl (by rw [ledResult_eq, if_pos hsw, if_neg (not_or.2 ⟨hon, hoff⟩)])

/-- Settles O8: SendOff's one check, passed or failed. -/
theorem sendOffSendsNoteOffWithVelocityZero : Obligations.SendOffSendsNoteOffWithVelocityZero := by
  intro s sw
  refine ⟨rfl, ?sent, ?badSwitch, rfl⟩
  case sent => exact fun hsw => answersWith_of_result rfl (by rw [offResult_eq, offVelocityResult_eq, if_pos hsw])
  case badSwitch =>
    exact fun hsw => answersWith_of_result rfl (by rw [offResult_eq, offVelocityResult_eq, if_neg (Nat.not_lt.2 hsw)])

/-- Settles O9: SendOffVelocity's one check; SendOff is its result for velocity 0. -/
theorem sendOffVelocitySendsNoteOff : Obligations.SendOffVelocitySendsNoteOff := by
  intro s sw vel
  refine ⟨rfl, ?sent, ?badSwitch, ?velocityZero, ?aboveSevenBits, rfl⟩
  case sent => exact fun hsw => answersWith_of_result rfl (by rw [offVelocityResult_eq, if_pos hsw])
  case badSwitch =>
    exact fun hsw => answersWith_of_result rfl (by rw [offVelocityResult_eq, if_neg (Nat.not_lt.2 hsw)])
  case velocityZero =>
    rw [exec_encoder (.sendOff sw) s _ rfl, offResult_eq, exec_encoder (.sendOffVelocity sw 0x00) s _ rfl]
  case aboveSevenBits =>
    intro hvel
    rw [serialize_noteOff, if_neg (by omega)]

/-- Settles O10: the two checks of SetFaderPos in order; the bus holds every Channel. -/
theorem setFaderPosBendsByPositionMinusBias : Obligations.SetFaderPosBendsByPositionMinusBias := by
  intro s ch lo hi pos
  refine ⟨?frame, ?bent, ?badChannel, ?badPosition, rfl⟩
  case frame =>
    intro h
    have hpos : positionOf lo hi = pos := BitVec.eq_of_toNat_eq ((positionOf_toNat lo hi).trans h.symm)
    rw [← hpos]
    rfl
  case bent =>
    intro hch hpos
    refine ⟨channelBus ch, channelBus_toNat hch, by omega, by omega, ?_⟩
    exact answersWith_of_result rfl (by rw [faderResult_eq, if_pos hch, if_pos hpos])
  case badChannel => exact fun hch => answersWith_of_result rfl (by rw [faderResult_eq, if_neg (Nat.not_le.2 hch)])
  case badPosition =>
    exact fun hch hpos => answersWith_of_result rfl (by rw [faderResult_eq, if_pos hch, if_neg (Nat.not_le.2 hpos)])

/-- Settles O12: the two checks of SetVPot in order; both sums fit a byte. -/
theorem setVPotSumsModeAndLED : Obligations.SetVPotSumsModeAndLED := by
  intro s ch mode led
  refine ⟨rfl, ?set, ?badChannel, ?badSum, rfl⟩
  case set =>
    intro hch hsum
    have hval := byteOf_toNat (mode.toNat + led.toNat) (by omega)
    refine ⟨byteOf (0x30 + ch.toNat), _, byteOf_toNat _ (by omega), hval, ?answer, fun hhigh => ?aboveSevenBits⟩
    case answer => exact answersWith_of_result rfl (by rw [vpotResult_eq, if_pos hch, if_pos hsum])
    case aboveSevenBits => rw [serialize_cc, if_neg (by omega)]
  case badChannel => exact fun hch => answersWith_of_result rfl (by rw [vpotResult_eq, if_neg (Nat.not_le.2 hch)])
  case badSum =>
    exact fun hch hsum => answersWith_of_result rfl (by rw [vpotResult_eq, if_pos hch, if_neg (Nat.not_le.2 hsum)])

/-- Settles O13: the two checks of SetMeter in order; Channel and level are the value's two nibbles. -/
theorem setMeterPacksChannelAndLevel : Obligations.SetMeterPacksChannelAndLevel := by
  intro s ch level
  refine ⟨rfl, ?set, ?badChannel, ?badLevel, rfl⟩
  case set =>
    intro hch hlevel
    have hval := byteOf_toNat (ch.toNat * 2 ^ 4 + level.toNat) (by omega)
    refine ⟨_, hval, byteOf_nibbles hch hlevel, by omega, by omega, ?answer, fun hmaster => ?aboveSevenBits⟩
    case answer => exact answersWith_of_result rfl (by rw [meterResult_eq, if_pos hch, if_pos hlevel])
    case aboveSevenBits => rw [serialize_chanPressure, if_neg (by omega)]
  case badChannel => exact fun hch => answersWith_of_result rfl (by rw [meterResult_eq, if_neg (Nat.not_le.2 hch)])
  case badLevel =>
    exact fun hch hlevel => answersWith_of_result rfl (by rw [meterResult_eq, if_pos hch, if_neg (Nat.not_lt.2 hlevel)])

/-- Settles O14: SetDigit's one check; at most 64 digits keep the controller within a byte. -/
theorem setDigitNormalizesOnce : Obligations.SetDigitNormalizesOnce := by
  intro s digit char hw
  obtain ⟨-, -, -, hdigits, -⟩ := Config.wf_counts hw
  refine ⟨rfl, ?set, ?badDigit, rfl⟩
  case set =>
    intro hdigit
    refine ⟨byteOf (0x40 + digit.toNat), normChar char, byteOf_toNat _ (by omega), normChar_toNat_of_shadow,
      normChar_of_not_shadow, ?answer, fun hhigh => ?aboveSevenBits⟩
    case answer => exact answersWith_of_result rfl (by rw [digitResult_eq, if_pos hdigit])
    case aboveSevenBits => rw [serialize_cc, if_neg (by omega)]
  case badDigit =>
    exact fun hdigit => answersWith_of_result rfl (by rw [digitResult_eq, if_neg (Nat.not_lt.2 hdigit)])

/-- Settles O15: `v - 0x40` lies outside both shadow ranges when `v` is in the first, and in the first when `v` is in
the second. -/
theorem digitShadowRangesDiffer : Obligations.DigitShadowRangesDiffer := by
  intro s digit v hdigit
  refine ⟨fun hlo hhi => ?first, fun hlo hhi => ?second⟩
  case first =>
    have hsub : (v - 0x40).toNat = v.toNat - 0x40 := BitVec.toNat_sub_of_le hlo
    have hnorm : normChar v = normChar (v - 0x40) := by
      rw [normChar_of_shadow (.inl ⟨hlo, hhi⟩), normChar_of_not_shadow (by rw [InShadowRange, hsub]; omega)]
    rw [exec_encoder _ s _ rfl, digitResult_eq, hnorm, ← digitResult_eq]
    exact (exec_encoder _ s _ rfl).symm
  case second =>
    have hsub : (v - 0x40).toNat = v.toNat - 0x40 := BitVec.toNat_sub_of_le (le_trans (by decide) hlo)
    have hnorm : normChar (v - 0x40) = v - 0x80 := by
      rw [normChar_of_shadow (.inl (by omega)), BitVec.sub_sub]
      rfl
    refine ⟨byteOf (0x40 + digit.toNat), ?send, ?sendAgain, ?differ⟩
    case send =>
      exact answersWith_of_result rfl (by rw [digitResult_eq, if_pos hdigit, normChar_of_shadow (.inr ⟨hlo, hhi⟩)])
    case sendAgain => exact answersWith_of_result rfl (by rw [digitResult_eq, if_pos hdigit, hnorm])
    case differ => bv_omega

end Sys2Proof.Proofs
end

section
/-! SUPPORT. The SysEx LCD encoders (43_sysex_lcd): what each check of R141 leaves when it passes and answers when it
fails, and what a command answered with messages sends. -/

namespace Sys2Proof.Machine

/-! ### The checks, passed or failed -/

section
variable {size : Nat} {off : Byte} {text : Text} {r : Result}

theorem lcdCheckOffset_of_lt (h : off.toNat < size) : lcdCheckOffset size off r = r := by
  rw [lcdCheckOffset_eq, if_pos h]

theorem lcdCheckOffset_of_le (h : size ≤ off.toNat) : lcdCheckOffset size off r = .error .lcdRange := by
  rw [lcdCheckOffset_eq, if_neg (Nat.not_lt.2 h)]

theorem lcdCheckText_of_fits (hl : off.toNat + text.length ≤ size) (ht : ∀ b ∈ text, b.toNat ≤ 0x7F) :
    lcdCheckText size off text r = r := by
  rw [lcdCheckText_eq, if_pos hl, if_pos ht]

theorem lcdCheckText_of_long (h : size < off.toNat + text.length) :
    lcdCheckText size off text r = .error .lcdRange := by
  rw [lcdCheckText_eq, if_neg (Nat.not_le.2 h)]

theorem lcdCheckText_of_highByte (hl : off.toNat + text.length ≤ size) (ht : ∃ b ∈ text, 0x7F < b.toNat) :
    lcdCheckText size off text r = .error .textChar := by
  obtain ⟨b, hb, hhigh⟩ := ht
  rw [lcdCheckText_eq, if_pos hl, if_neg fun h => Nat.not_le.2 hhigh (h b hb)]

/-- SetLCDC4 on an offset and a row of the display has the checks of the text left (R144). -/
theorem lcdC4Result_of_row {c : Config} {row : Byte} (ho : off.toNat < c.lcdSizeC4) (hrow : row.toNat < c.lenC4Rows) :
    lcdC4Result c off row text =
      lcdCheckText (c.lcdSize .c4) off text (.messages [.sysEx (lcdPayload c .c4 (rowByte row) off text)]) := by
  rw [lcdC4Result, (rowOk_iff c row).2 hrow, require_true]
  exact lcdCheckOffset_of_lt ho

/-- A command whose result lies behind the two checks of R141 answers that result or the error of the check that fails
first. -/
theorem answersWith_of_lcdChecks {i : Instr} {s : State}
    (hi : encoderResult s.cfg i = some (lcdCheckOffset size off (lcdCheckText size off text r))) :
    (off.toNat < size → off.toNat + text.length ≤ size → (∀ b ∈ text, b.toNat ≤ 0x7F) → AnswersWith i s r) ∧
    ((size ≤ off.toNat ∨ size < off.toNat + text.length) → AnswersWith i s (.error .lcdRange)) ∧
    (off.toNat < size → off.toNat + text.length ≤ size → (∃ b ∈ text, 0x7F < b.toNat) →
      AnswersWith i s (.error .textChar)) := by
  refine ⟨fun ho hl ht => ?written, fun h => answersWith_of_result hi ?beyond, fun ho hl ht => ?badText⟩
  case written => exact answersWith_of_result hi ((lcdCheckOffset_of_lt ho).trans (lcdCheckText_of_fits hl ht))
  case beyond =>
    obtain hlt | hle := Nat.lt_or_ge off.toNat size
    · exact (lcdCheckOffset_of_lt hlt).trans (lcdCheckText_of_long (h.resolve_left (Nat.not_le.2 hlt)))
    · exact lcdCheckOffset_of_le hle
  case badText => exact answersWith_of_result hi ((lcdCheckOffset_of_lt ho).trans (lcdCheckText_of_highByte hl ht))

end

/-! ### What a command answered with messages sends -/

/-- A check in front of a result adds no messages: with messages as the outcome, the check has passed. -/
theorem messages_of_require {p : Bool} {e : DomainError} {r : Result} {ms : List Message}
    (h : require p e r = .messages ms) : r = .messages ms := by
  obtain ⟨-, hr⟩ | ⟨-, hr⟩ := require_cases p e r <;> rw [hr] at h
  · exact h
  · cases h

theorem messages_of_lcdCheckText {size : Nat} {off : Byte} {text : Text} {r : Result} {ms : List Message}
    (h : lcdCheckText size off text r = .messages ms) : r = .messages ms :=
  messages_of_require (messages_of_require h)

/-- An LCD command answered with messages sends one SysEx, whose payload is that of R140. -/
theorem lcdPayload_of_answersWith {s : State} {i : Instr} {v : Variant} {text : Text} {ms : List Message}
    (hi : (∃ off, i = .setLCD off text ∧ v = .std) ∨ (∃ off, i = .setLCDXT off text ∧ v = .xt) ∨
      (∃ off row, i = .setLCDC4 off row text ∧ v = .c4))
    (h : AnswersWith i s (.messages ms)) :
    ∃ fb off, ms = [.sysEx (lcdPayload s.cfg v fb off text)] := by
  have hr := encoderResult_of_answersWith h
  obtain ⟨off, rfl, rfl⟩ | ⟨off, rfl, rfl⟩ | ⟨off, row, rfl, rfl⟩ := hi <;> replace hr := Option.some.inj hr
  · cases messages_of_lcdCheckText (messages_of_require hr)
    exact ⟨_, off, rfl⟩
  · cases messages_of_lcdCheckText (messages_of_require hr)
    exact ⟨_, off, rfl⟩
  · cases messages_of_lcdCheckText (messages_of_require (messages_of_require hr))
    exact ⟨_, off, rfl⟩

end Sys2Proof.Machine

namespace Sys2Proof.Proofs

open Sys2Proof Sys2Proof.Machine

/-- Settles O20: the payload is `lcdPayload`, and a SysEx frame adds two bytes to it. -/
theorem lcdMessagesAreHeaderFrameOffsetText : Obligations.LCDMessagesAreHeaderFrameOffsetText := by
  intro s i v text ms hi h
  obtain ⟨fb, off, rfl⟩ := lcdPayload_of_answersWith hi h
  have hlen := length_lcdPayload s.cfg v fb off text
  refine ⟨_, rfl, hlen, take_lcdPayload .., ?text, _, serialize_sysEx _, ?wire⟩
  case text => rw [hlen, Nat.add_sub_cancel, drop_lcdPayload]
  case wire => rw [(framed_sysEx _).length_eq, hlen]; omega

/-- Settles O17: the checks of R141 on the standard display. -/
theorem setLCDWritesTheStandardDisplay : Obligations.SetLCDWritesTheStandardDisplay := by
  intro s off text
  obtain ⟨written, beyond, badText⟩ := answersWith_of_lcdChecks (i := .setLCD off text) (s := s) rfl
  exact ⟨fun h => (decode_eq_ok_iff _ _).2 ⟨decide_eq_true h, rfl⟩, written, beyond, badText, rfl⟩

/-- Settles O18: the checks of R141 on the XT's display. -/
theorem setLCDXTWritesTheExtenderDisplay : Obligations.SetLCDXTWritesTheExtenderDisplay := by
  intro s off text
  obtain ⟨written, beyond, badText⟩ := answersWith_of_lcdChecks (i := .setLCDXT off text) (s := s) rfl
  exact ⟨fun h => (decode_eq_ok_iff _ _).2 ⟨decide_eq_true h, rfl⟩, written, beyond, badText, rfl⟩

/-- Settles O19: the row is checked between the offset and the text; a well-formed configuration has at most 0x50 rows,
which keeps the selector a data byte. -/
theorem setLCDC4WritesOneRow : Obligations.SetLCDC4WritesOneRow := by
  intro s off row text hw
  refine ⟨?frame, ?written, ?badOffset, ?badRow, ?badLength, ?badText, rfl⟩
  case frame => exact fun h => (decode_eq_ok_iff _ _).2 ⟨decide_eq_true h, rfl⟩
  case written =>
    intro ho hrow hl ht
    obtain ⟨hselector, hdata⟩ := rowByte_toNat s.cfg row hw hrow
    exact ⟨rowByte row, hselector, hselector.trans_le hdata,
      answersWith_of_result rfl ((lcdC4Result_of_row ho hrow).trans (lcdCheckText_of_fits hl ht))⟩
  case badOffset => exact fun ho => answersWith_of_result rfl (lcdCheckOffset_of_le ho)
  case badRow =>
    exact fun ho hrow => answersWith_of_result rfl (by rw [lcdC4Result_eq, if_pos ho, if_neg (Nat.not_lt.2 hrow)])
  case badLength =>
    exact fun ho hrow hl => answersWith_of_result rfl ((lcdC4Result_of_row ho hrow).trans (lcdCheckText_of_long hl))
  case badText =>
    exact fun ho hrow hl ht =>
      answersWith_of_result rfl ((lcdC4Result_of_row ho hrow).trans (lcdCheckText_of_highByte hl ht))

end Sys2Proof.Proofs
end

section
/-! SUPPORT. The reset's batches (44_reset_sequencer part 2): each command returns one message, so a batch is as
long as its list of commands, and the records of each family. -/

namespace Sys2Proof.Machine

variable {c : Config}

/-- The command is answered with exactly one message. -/
def ReturnsOne (c : Config) (i : Instr) : Prop := ∃ m, encoderResult c i = some (.messages [m])

/-! ### Batches and their families -/

/-- The messages of lists of commands one after another, list by list. -/
theorem batchOf_flatMap {α : Type} (c : Config) (l : List α) (f : α → List Instr) :
    batchOf c (l.flatMap f) = l.flatMap fun a => batchOf c (f a) :=
  List.flatMap_assoc

theorem batchOf_pair {i j : Instr} {m n : Message} (hi : encoderResult c i = some (.messages [m]))
    (hj : encoderResult c j = some (.messages [n])) : batchOf c [i, j] = [m, n] := by
  simp [batchOf, messagesOf, hi, hj]

/-- A batch is its families' sub-batches in `FamilyOrder`. -/
theorem batchOf_families (c : Config) (family : Family → List Instr) :
    batchOf c (c.familyOrder.flatMap family) = (c.familyOrder.map fun f => batchOf c (family f)).flatten := by
  rw [batchOf_flatMap, List.flatMap_def]

theorem length_batchOf {is : List Instr} (h : ∀ i ∈ is, ReturnsOne c i) : (batchOf c is).length = is.length := by
  induction is with
  | nil => rfl
  | cons i is ih =>
    obtain ⟨⟨m, hm⟩, htail⟩ := List.forall_mem_cons.1 h
    show (messagesOf (encoderResult c i) ++ batchOf c is).length = _
    rw [hm, List.length_append, ih htail, Nat.add_comm]
    rfl

theorem mem_allFamilies (f : Family) : f ∈ Config.allFamilies := by
  cases f <;> decide

/-- The order of the families does not change how many commands they have together. -/
theorem length_families (hw : c.wf = true) (family : Family → List Instr) :
    (c.familyOrder.flatMap family).length = (Config.allFamilies.flatMap family).length :=
  ((familyOrder_perm hw).flatMap_right family).length_eq


/-! ### Every command of a batch returns one message (R182) -/

theorem forall_mem_map_range {n : Nat} {f : Nat → Instr} {p : Instr → Prop} :
    (∀ i ∈ (List.range n).map f, p i) ↔ ∀ k < n, p (f k) := by
  simp only [List.forall_mem_map, List.mem_range]

theorem familyA_returnsOne (hw : c.wf = true) (f : Family) : ∀ i ∈ familyA c f, ReturnsOne c i := by
  obtain ⟨-, -, -, -, hclipping, -, -, hmode3, -⟩ := Config.wf_named hw
  cases f with
  | led => exact forall_mem_map_range.2 fun k hk => ⟨_, encoderResult_led hw hk (.inl rfl)⟩
  | fader => exact forall_mem_map_range.2 fun k hk => ⟨_, encoderResult_fader c hk (Nat.le_refl _)⟩
  | vpot => exact forall_mem_map_range.2 fun k hk => ⟨_, encoderResult_vpot c (Nat.lt_succ_of_lt hk) hmode3⟩
  | meter => exact forall_mem_map_range.2 fun k hk => ⟨_, encoderResult_meter c (Nat.lt_succ_of_lt hk) hclipping⟩
  | digit => exact forall_mem_map_range.2 fun k hk => ⟨_, encoderResult_digit hw hk _⟩
  | lcd => exact forall_mem_map_range.2 fun k hk => ⟨_, encoderResult_blankLine hw hk⟩

theorem familyB_returnsOne (hw : c.wf = true) (f : Family) : ∀ i ∈ familyB c f, ReturnsOne c i := by
  obtain ⟨-, -, -, hlow, -, hclipOff, -, -, hmode0⟩ := Config.wf_named hw
  cases f with
  | led => exact forall_mem_map_range.2 fun k hk => ⟨_, encoderResult_led hw hk (.inr rfl)⟩
  | fader => exact forall_mem_map_range.2 fun k hk => ⟨_, encoderResult_fader c hk (Nat.zero_le _)⟩
  | vpot => exact forall_mem_map_range.2 fun k hk => ⟨_, encoderResult_vpot c (Nat.lt_succ_of_lt hk) hmode0⟩
  | meter =>
    intro i hi
    obtain ⟨k, hk, hik⟩ := List.mem_flatMap.1 hi
    have hk9 : k < 9 := Nat.lt_succ_of_lt (List.mem_range.1 hk)
    obtain rfl | rfl := List.mem_pair.1 hik
    · exact ⟨_, encoderResult_meter c hk9 hclipOff⟩
    · exact ⟨_, encoderResult_meter c hk9 hlow⟩
  | digit => exact forall_mem_map_range.2 fun k hk => ⟨_, encoderResult_digit hw hk _⟩
  | lcd => exact forall_mem_map_range.2 fun k hk => ⟨_, encoderResult_blankLine hw hk⟩

/-! ### The lengths of the batches (R171) -/

theorem length_batchA (hw : c.wf = true) : (batchA c).length = c.lenIDs + c.lenDigits + c.lenLines + 25 := by
  have hsizes : (Config.allFamilies.flatMap (familyA c)).length =
      c.lenIDs + (9 + (8 + (8 + (c.lenDigits + c.lenLines)))) := by
    simp [Config.allFamilies, familyA, strips, channels, Config.lenChannels]
  rw [batchA, length_batchOf (List.forall_mem_flatMap.2 fun f _ => familyA_returnsOne hw f), length_families hw, hsizes]
  omega

theorem length_batchB (hw : c.wf = true) : (batchB c).length = c.lenIDs + c.lenDigits + c.lenLines + 33 := by
  have hsizes : (Config.allFamilies.flatMap (familyB c)).length =
      c.lenIDs + (9 + (8 + (16 + (c.lenDigits + c.lenLines)))) := by
    simp [Config.allFamilies, familyB, strips, channels, Config.lenChannels]
  rw [batchB, length_batchOf (List.forall_mem_flatMap.2 fun f _ => familyB_returnsOne hw f), length_families hw, hsizes]
  omega

/-! ### The records of a family (R165 to R170) -/

theorem batchOf_map_range {n : Nat} {f : Nat → Instr} {g : Nat → Message}
    (h : ∀ k < n, encoderResult c (f k) = some (.messages [g k])) :
    batchOf c ((List.range n).map f) = (List.range n).map g :=
  batchOf_map c _ f g fun k hk => h k (List.mem_range.1 hk)

theorem batchOf_faders (c : Config) {p : Nat} (hp : p ≤ 16382) :
    batchOf c (channels.map fun ch => .setFaderPos (byteOf ch) (BitVec.ofNat 16 p)) =
      (List.range 9).map fun ch => .pitchBend (BitVec.ofNat 4 ch) ((p : Int) - 8191) :=
  batchOf_map_range fun _ hk => encoderResult_fader c hk hp

theorem batchOf_vpots (c : Config) {mode led : Byte} (h : mode.toNat + led.toNat ≤ 0xFF) :
    batchOf c (strips.map fun ch => .setVPot (byteOf ch) mode led) =
      (List.range 8).map fun ch => .cc 0 (byteOf (0x30 + ch)) (mode + led) :=
  batchOf_map_range fun _ hk => encoderResult_vpot c (Nat.lt_succ_of_lt hk) h

/-- The record of a level on a strip. -/
def meterRecord (ch : Nat) (level : Byte) : Message := .chanPressure 0 (byteOf (ch * 2 ^ 4 + level.toNat))

theorem batchOf_meters (c : Config) {level : Byte} (h : level.toNat < 16) :
    batchOf c (strips.map fun ch => .setMeter (byteOf ch) level) = (List.range 8).map (meterRecord · level) :=
  batchOf_map_range fun _ hk => encoderResult_meter c (Nat.lt_succ_of_lt hk) h

theorem batchOf_meterPairs (c : Config) {first second : Byte} (h₁ : first.toNat < 16) (h₂ : second.toNat < 16) :
    batchOf c (strips.flatMap fun ch => [.setMeter (byteOf ch) first, .setMeter (byteOf ch) second]) =
      (List.range 8).flatMap fun ch => [meterRecord ch first, meterRecord ch second] := by
  rw [batchOf_flatMap]
  refine List.flatMap_congr fun k hk => ?_
  have hk9 : k < 9 := Nat.lt_succ_of_lt (List.mem_range.1 hk)
  exact batchOf_pair (encoderResult_meter c hk9 h₁) (encoderResult_meter c hk9 h₂)

/-- The eight strips and sixteen levels make data bytes. -/
theorem serialize_meterRecord_ne_none {ch : Nat} (hch : ch < 8) {level : Byte} (h : level.toNat < 16) :
    serialize (meterRecord ch level) ≠ none := by
  have hle : (byteOf (ch * 2 ^ 4 + level.toNat)).toNat ≤ 0x7F := by
    rw [byteOf_toNat _ (by omega)]
    omega
  rw [meterRecord, serialize_chanPressure, if_pos hle]
  exact Option.some_ne_none _

theorem batchOf_digits (hw : c.wf = true) (char : Byte) :
    batchOf c ((List.range c.lenDigits).map fun d => .setDigit (byteOf d) char) =
      (List.range c.lenDigits).map fun d => .cc 15 (byteOf (0x40 + d)) (normChar char) :=
  batchOf_map_range fun _ hk => encoderResult_digit hw hk char

end Sys2Proof.Machine

namespace Sys2Proof.Proofs

open Sys2Proof Sys2Proof.Machine

/-- Settles O42: every command of a batch returns one message, and the order of the families does not change their
number. -/
theorem batchLengths : Obligations.BatchLengths := by
  intro c hw
  have hA := length_batchA hw
  have hB := length_batchB hw
  exact ⟨hA, hB, by omega⟩

/-- Settles O43: family by family, the operands lie in their domains. -/
theorem noDomainErrorDuringAReset : Obligations.NoDomainErrorDuringAReset := by
  intro c f i hw h
  exact h.elim (familyA_returnsOne hw f i) (familyB_returnsOne hw f i)

/-- Settles O44: family by family, each command returns its record; a meter's record is a data byte because Master is
left out. -/
theorem familyRecords : Obligations.FamilyRecords := by
  intro c hw
  obtain ⟨-, -, -, hlow, hclipping, hclipOff, -, hmode3, hmode0⟩ := Config.wf_named hw
  have hmeterA := batchOf_meters c hclipping
  have hmeterB := batchOf_meterPairs c hclipOff hlow
  refine ⟨?ledA, ?ledB, batchOf_faders c (Nat.le_refl _), batchOf_faders c (Nat.zero_le _),
    fun ch => ⟨serialize_pitchBend ch 8191, serialize_pitchBend ch (-8191)⟩, batchOf_vpots c hmode3,
    batchOf_vpots c hmode0, hmeterA, hmeterB, ?meterBytes, batchOf_digits hw _, batchOf_digits hw _, rfl, rfl, ?lcd,
    rfl⟩
  case ledA => exact batchOf_map_range fun _ hk => encoderResult_led hw hk (.inl rfl)
  case ledB => exact batchOf_map_range fun _ hk => encoderResult_led hw hk (.inr rfl)
  case meterBytes =>
    intro m hm
    obtain hm | hm := List.mem_append.1 hm
    · obtain ⟨k, hk, rfl⟩ := List.mem_map.1 (hmeterA ▸ hm)
      exact serialize_meterRecord_ne_none (List.mem_range.1 hk) hclipping
    · obtain ⟨k, hk, hmk⟩ := List.mem_flatMap.1 (hmeterB ▸ hm)
      obtain rfl | rfl := List.mem_pair.1 hmk
      · exact serialize_meterRecord_ne_none (List.mem_range.1 hk) hclipOff
      · exact serialize_meterRecord_ne_none (List.mem_range.1 hk) hlow
  case lcd => exact batchOf_map_range fun _ hk => encoderResult_blankLine hw hk

/-- Settles O45: the messages of the families' commands are taken family by family; a permutation of the six families
names each once. -/
theorem batchesGroupTheFamilies : Obligations.BatchesGroupTheFamilies := by
  refine ⟨rfl, fun c => ⟨batchOf_families c _, batchOf_families c _, fun hw => ?order⟩⟩
  case order =>
    have hperm := familyOrder_perm hw
    exact ⟨hperm.nodup_iff.2 (by decide), fun f => hperm.mem_iff.2 (mem_allFamilies f)⟩

end Sys2Proof.Proofs
end

section
/-! SUPPORT. The reset sequencer's transitions (44_reset_sequencer part 3), each as the step that takes it, and what the
sequencer does while it is idle or waits for an answer. -/

namespace Sys2Proof.Machine

variable {s t : State} {x : Input} {rest : List Input}

/-! ### The sequencer's turn, transition by transition -/

theorem currentBatch_phaseB (h : s.rsPhase = .phaseB) : currentBatch s = batchB s.cfg := by simp [currentBatch, h]

theorem currentBatch_idle (h : s.rsPhase = .idle) : currentBatch s = [] := by simp [currentBatch, h]

theorem sequencerTurn_idle (hp : s.rsPhase = .idle) :
    sequencerTurn s = if 0 < s.held then startReset { s with held := s.held - 1 } else s := by
  simp only [sequencerTurn, hp]

theorem sequencerTurn_settle (hp : s.rsPhase = .settle) :
    sequencerTurn s = if s.rsSettleStart + s.cfg.settleTicks ≤ s.clock then endSettle s else s := by
  simp only [sequencerTurn, hp, settled, decide_eq_true_eq]

/-- Inside a batch the next message is offered (R173). -/
theorem sequencerTurn_offer {m : Message} (hq : s.rsPending = false) (hm : (currentBatch s)[s.rsIndex]? = some m) :
    sequencerTurn s = offerSend m s := by
  cases hp : s.rsPhase with
  | idle => simp [currentBatch_idle hp] at hm
  | settle => simp [currentBatch_settle hp] at hm
  | phaseA | phaseB => simp [sequencerTurn, hp, hq, advanceBatch, hm]

/-- At the end of a batch its phase is left (R176, R178). -/
theorem advanceBatch_of_complete (done : State → State) (hi : s.rsIndex = (currentBatch s).length) :
    advanceBatch done s = done s := by
  simp [advanceBatch, hi]

theorem sequencerTurn_endPhaseA (hp : s.rsPhase = .phaseA) (hq : s.rsPending = false)
    (hi : s.rsIndex = (batchA s.cfg).length) : sequencerTurn s = endPhaseA s := by
  rw [← currentBatch_phaseA hp] at hi
  simp [sequencerTurn, hp, hq, advanceBatch_of_complete endPhaseA hi]

theorem sequencerTurn_endPhaseB (hp : s.rsPhase = .phaseB) (hq : s.rsPending = false)
    (hi : s.rsIndex = (batchB s.cfg).length) : sequencerTurn s = endPhaseB s := by
  rw [← currentBatch_phaseB hp] at hi
  simp [sequencerTurn, hp, hq, advanceBatch_of_complete endPhaseB hi]

/-! ### The steps that take a turn, an answer or a Reset frame -/

theorem step_sequencer (hw : s.cfg.wf = true) (h : Takes s .sequencer rest) :
    step s = .next (sequencerTurn { s with inputs := rest }) := by
  obtain hi | ⟨hi, rfl, -⟩ := h
  · exact step_input s _ rest hw hi
  · rw [step_waiting s hw hi, show { s with inputs := [] } = s by rw [← hi]]

theorem step_answer {a : Answer} (hw : s.cfg.wf = true) (hi : s.inputs = .answer a :: rest) (hq : s.rsPending = true) :
    step s = .next (takeAnswer a { s with inputs := rest }) := by
  rw [step_input s _ rest hw hi]
  exact if_pos hq

theorem step_offer {m : Message} (hw : s.cfg.wf = true) (h : Takes s .sequencer rest) (hq : s.rsPending = false)
    (hm : (currentBatch s)[s.rsIndex]? = some m) : step s = .next (offerSend m { s with inputs := rest }) :=
  (step_sequencer hw h).trans (congrArg _ (sequencerTurn_offer hq hm))

theorem step_endPhaseA (hw : s.cfg.wf = true) (h : Takes s .sequencer rest) (hp : s.rsPhase = .phaseA)
    (hq : s.rsPending = false) (hi : s.rsIndex = (batchA s.cfg).length) :
    step s = .next (endPhaseA { s with inputs := rest }) :=
  (step_sequencer hw h).trans (congrArg _ (sequencerTurn_endPhaseA hp hq hi))

theorem step_endPhaseB (hw : s.cfg.wf = true) (h : Takes s .sequencer rest) (hp : s.rsPhase = .phaseB)
    (hq : s.rsPending = false) (hi : s.rsIndex = (batchB s.cfg).length) :
    step s = .next (endPhaseB { s with inputs := rest }) :=
  (step_sequencer hw h).trans (congrArg _ (sequencerTurn_endPhaseB hp hq hi))

theorem step_settle (hw : s.cfg.wf = true) (h : Takes s .sequencer rest) (hp : s.rsPhase = .settle) :
    step s = .next (if s.rsSettleStart + s.cfg.settleTicks ≤ s.clock then endSettle { s with inputs := rest }
      else { s with inputs := rest }) :=
  (step_sequencer hw h).trans (congrArg _ (sequencerTurn_settle hp))

theorem step_startReset (hw : s.cfg.wf = true) (hi : s.inputs = .frame [0x0D] :: rest) (hp : s.rsPhase = .idle) :
    step s = .next (startReset { s with inputs := rest }) := by
  rw [step_input s _ rest hw hi]
  exact if_pos hp

/-! ### What the sequencer does not do -/

/-- IDLE is left for phase A only, by accepting a Reset frame, offered or held (R172). -/
theorem Effect.leaves_idle (h : Effect s x t) (hp : s.rsPhase = .idle) :
    t.rsPhase = .idle ∨ t.rsPhase = .phaseA ∧
      ((∃ f, x = .frame f ∧ decode f = .ok .reset) ∨ (x = .sequencer ∧ 0 < s.held)) := by
  cases h with
  | started f hd _ => exact .inr ⟨rfl, .inl ⟨f, rfl, hd⟩⟩
  | startedHeld _ hh => exact .inr ⟨rfl, .inr ⟨rfl, hh⟩⟩
  | endedSettle hp' _ => exact absurd (hp.symm.trans hp') nofun
  | endedA hp' _ _ => exact absurd (hp.symm.trans hp') nofun
  | failed | endedB | poweredOn => exact .inl rfl
  | _ => exact .inl hp

/-- Only an answer to an outstanding send, and a turn inside a phase, add to the sequencer's traffic or to the
statuses. -/
theorem Effect.quiet (h : Effect s x t) (hanswer : ∀ a, x = .answer a → s.rsPending = false)
    (hturn : x = .sequencer → s.rsPending = true ∨ s.rsPhase = .idle) :
    sequencerActions t.transport = sequencerActions s.transport ∧ t.statuses = s.statuses := by
  cases h with
  | acknowledged hq => exact absurd (hq.symm.trans (hanswer _ rfl)) nofun
  | failed e hq => exact absurd (hq.symm.trans (hanswer _ rfl)) nofun
  | offered m hq hm =>
    obtain hq' | hp := hturn rfl
    · exact absurd (hq.symm.trans hq') nofun
    · simp [currentBatch_idle hp] at hm
  | endedB hp hq _ =>
    obtain hq' | hp' := hturn rfl
    · exact absurd (hq.symm.trans hq') nofun
    · exact absurd (hp.symm.trans hp') nofun
  | callerSent m => exact ⟨sequencerActions_onTransport_callerSent m s, rfl⟩
  | _ => exact ⟨rfl, rfl⟩

/-- While a send of a batch waits for its answer, no input but that answer and a power-on reset moves the sequencer
(R179; 70_reset R237). -/
theorem Effect.waits (h : Effect s x t) (hq : s.rsPending = true) (hidle : s.rsPhase ≠ .idle)
    (hsettle : s.rsPhase ≠ .settle) (hanswer : ∀ a, x ≠ .answer a) (hpower : ∀ v, x ≠ .powerOn v) :
    t.rsPhase = s.rsPhase ∧ t.rsIndex = s.rsIndex ∧ t.rsPending = true ∧ t.rsSettleStart = s.rsSettleStart ∧
      t.rsResult = s.rsResult ∧ s.held ≤ t.held := by
  cases h with
  | started f _ hp => exact absurd hp hidle
  | startedHeld hp _ => exact absurd hp hidle
  | endedSettle hp _ => exact absurd hp hsettle
  | acknowledged _ => exact absurd rfl (hanswer _)
  | failed e _ => exact absurd rfl (hanswer _)
  | poweredOn v => exact absurd rfl (hpower v)
  | offered m hq' _ => exact absurd (hq'.symm.trans hq) nofun
  | endedA _ hq' _ => exact absurd (hq'.symm.trans hq) nofun
  | endedB _ hq' _ => exact absurd (hq'.symm.trans hq) nofun
  | held f _ _ => exact ⟨rfl, rfl, hq, rfl, rfl, Nat.le_succ _⟩
  | _ => exact ⟨rfl, rfl, hq, rfl, rfl, Nat.le_refl _⟩

theorem Takes.ne_of_noAnswerNext (h : Takes s x rest) (hn : noAnswerNext s = true) :
    (∀ a, x ≠ .answer a) ∧ ∀ v, x ≠ .powerOn v := by
  constructor
  · rintro a rfl
    simp [noAnswerNext, h.inputs_eq nofun] at hn
  · rintro v rfl
    simp [noAnswerNext, h.inputs_eq nofun] at hn

end Sys2Proof.Machine

namespace Sys2Proof.Proofs

open Sys2Proof Sys2Proof.Machine

/-- Settles O23: the command's result is a function of the configuration, and the command appends it. -/
theorem encoderCommandsOnlyAnswer : Obligations.EncoderCommandsOnlyAnswer := by
  intro i s hreset
  obtain ⟨r, hr⟩ := encoderResult_isSome s.cfg i hreset
  exact ⟨r, exec_encoder i s r hr, fun s' hcfg => exec_encoder i s' r (hcfg ▸ hr)⟩

/-- Settles O30: the turn in IDLE accepts a held frame or rests; no other effect leaves IDLE, and none there adds to the
sequencer's traffic. -/
theorem resetStartsInIdle : Obligations.ResetStartsInIdle := by
  intro s hp
  refine ⟨?start, ?turn, fun t h => ?step⟩
  case start => rw [exec_reset, if_pos hp]; rfl
  case turn =>
    intro rest hw hi
    have hx : Takes s .sequencer rest := hi.imp_right fun ⟨he, hr⟩ => ⟨he, hr, rfl⟩
    have hstep := (step_sequencer hw hx).trans (congrArg _ (sequencerTurn_idle hp))
    exact ⟨fun hh => hstep.trans (congrArg _ (if_pos hh)), fun hh => hstep.trans (congrArg _ (if_neg hh.not_gt))⟩
  case step =>
    obtain ⟨x, rest, hx, he⟩ := step_effect h
    refine ⟨fun hne => ?leaves, fun hq => he.quiet (fun _ _ => hq) (fun _ => .inr hp)⟩
    obtain hstay | ⟨hA, ⟨f, rfl, hd⟩ | ⟨rfl, hh⟩⟩ := he.leaves_idle hp
    · exact absurd hstay hne
    · exact ⟨hA, hx.acceptsReset_of_frame hd⟩
    · exact ⟨hA, hx.acceptsReset_of_held hh⟩

/-- Settles O40: with a send outstanding, an input that is neither its answer nor a power-on finds the sequencer
waiting. -/
theorem silentTransportHangsTheSequencer : Obligations.SilentTransportHangsTheSequencer := by
  intro s t hq hidle hsettle hnext h
  obtain ⟨x, rest, hx, he⟩ := step_effect h
  obtain ⟨hanswer, hpower⟩ := hx.ne_of_noAnswerNext hnext
  obtain ⟨hphase, hindex, hpending, hstart, hresult, hheld⟩ := he.waits hq hidle hsettle hanswer hpower
  obtain ⟨hactions, hstatuses⟩ := he.quiet (fun a e => absurd e (hanswer a)) (fun _ => .inl hq)
  exact ⟨hphase, hindex, hpending, hstart, hresult, hstatuses, hheld, hactions⟩

/-- Settles O32: the turn inside a batch offers its next message. -/
theorem offerTransition : Obligations.OfferTransition := by
  intro s rest m hw hi hq hm
  refine step_offer hw (.inl hi) hq ?_
  obtain ⟨hp, hm⟩ | ⟨hp, hm⟩ := hm
  · rwa [currentBatch_phaseA hp]
  · rwa [currentBatch_phaseB hp]

/-- Settles O33: the answer `err(e)` is transport error entry. -/
theorem failureTransition : Obligations.FailureTransition := by
  intro s e rest hw hi hq
  exact step_answer hw hi hq

/-- Settles O34: the answer `ok` acknowledges the send. -/
theorem acknowledgeTransition : Obligations.AcknowledgeTransition := by
  intro s rest hw hi hq
  exact step_answer hw hi hq

/-- Settles O35: with no message left the turn in phase A begins the settling. -/
theorem endOfPhaseATransition : Obligations.EndOfPhaseATransition := by
  intro s rest hw hi hp hq hlen
  exact step_endPhaseA hw (.inl hi) hp hq hlen

/-- Settles O36: the turn in SETTLE reads the clock. -/
theorem settlingTransition : Obligations.SettlingTransition := by
  intro s rest hw hi hp
  have hstep := step_settle hw (.inl hi) hp
  exact ⟨fun hc => hstep.trans (congrArg _ (if_pos hc)), fun hc => hstep.trans (congrArg _ (if_neg hc.not_ge))⟩

/-- Settles O37: with no message left the turn in phase B ends the command. -/
theorem endOfPhaseBTransition : Obligations.EndOfPhaseBTransition := by
  intro s rest hw hi hp hq hlen
  exact step_endPhaseB hw (.inl hi) hp hq hlen

end Sys2Proof.Proofs
end

section
/-! SUPPORT. Whole Reset commands (44_reset_sequencer R160, R181): what the transport port saw when one ends with OK
or on a failed send, and the run in which every send is acknowledged. -/

namespace Sys2Proof.Machine

variable {s t : State} {x : Input} {rest : List Input}

/-! ### How a Reset command ends -/

/-- With a send outstanding, the batch's messages before it are acknowledged and it is offered. -/
theorem progress_of_pending {m : Message} (hq : s.rsPending = true) (hm : (currentBatch s)[s.rsIndex]? = some m) :
    progress s = acknowledged ((currentBatch s).take s.rsIndex) ++ [.offered m] := by
  simp [progress, outstanding, hq, hm]

/-- A send is outstanding only for a message of the present batch. -/
theorem Inv.exists_pending_message (h : Inv s) (hq : s.rsPending = true) : ∃ m, (currentBatch s)[s.rsIndex]? = some m :=
  ⟨_, List.getElem?_eq_getElem (h.pending hq)⟩

/-- The only effect that ends phase B with OK is the turn at the end of the batch (R178). -/
theorem Effect.completes (h : Effect s x t) (hp : s.rsPhase = .phaseB) (hidle : t.rsPhase = .idle)
    (hok : t.rsResult = .ok) :
    s.rsPending = false ∧ s.rsIndex = (batchB s.cfg).length ∧ t = endPhaseB s := by
  cases h with
  | endedB _ hq hi => exact ⟨hq, hi, rfl⟩
  | failed e _ => cases hok
  | poweredOn v => cases hok
  | started f _ hp' => exact absurd (hp.symm.trans hp') nofun
  | startedHeld hp' _ => exact absurd (hp.symm.trans hp') nofun
  | endedA hp' _ _ => exact absurd (hp.symm.trans hp') nofun
  | endedSettle hp' _ => exact absurd (hp.symm.trans hp') nofun
  | _ => exact absurd (hp.symm.trans hidle) nofun

/-! ### Runs -/

theorem run_succ_eq_next_iff (M : Host.Core) {n : Nat} {s u : M.State} :
    M.run (n + 1) s = .next u ↔ ∃ t, M.step s = .next t ∧ M.run n t = .next u := by
  rw [Host.Core.run]
  cases M.step s <;> simp

/-- The machine takes `n` steps from `s` to `t`. -/
def Runs (n : Nat) (s t : State) : Prop := Host.Core.run core n s = .next t

theorem runs_zero (s : State) : Runs 0 s s := rfl

theorem runs_succ_iff {n : Nat} {u : State} : Runs (n + 1) s u ↔ ∃ t, step s = .next t ∧ Runs n t u :=
  run_succ_eq_next_iff core

theorem runs_one (h : step s = .next t) : Runs 1 s t := runs_succ_iff.2 ⟨t, h, runs_zero t⟩

theorem Runs.trans {m n : Nat} {u : State} (h : Runs m s t) (hr : Runs n t u) : Runs (m + n) s u := by
  induction m generalizing s with
  | zero =>
    cases h
    rwa [Nat.zero_add]
  | succ m ih =>
    obtain ⟨s', hstep, h⟩ := runs_succ_iff.1 h
    rw [Nat.succ_add]
    exact runs_succ_iff.2 ⟨s', hstep, ih h⟩

/-! ### A batch whose sends are all acknowledged -/

theorem acknowledgedSends_succ (n : Nat) :
    acknowledgedSends (n + 1) = .sequencer :: .answer .ok :: acknowledgedSends n := rfl

/-- The state after the sends of `ms`, the rest of the schedule being `rest`. -/
def afterSends (ms : List Message) (rest : List Input) (s : State) : State :=
  { s with inputs := rest, rsIndex := s.rsIndex + ms.length,
           transport := s.transport ++ eventsAt s.clock (acknowledged ms) }

theorem afterSends_nil (hi : s.inputs = rest) : afterSends [] rest s = s := by
  subst hi
  simp [afterSends, eventsAt]

theorem afterSends_of_zero {ms : List Message} (h0 : s.rsIndex = 0) :
    afterSends ms rest s = { s with
      inputs := rest, rsIndex := ms.length, transport := s.transport ++ eventsAt s.clock (acknowledged ms) } := by
  rw [afterSends, h0, Nat.zero_add]

theorem afterSends_cons (m : Message) (ms : List Message) (now : List Input) :
    afterSends ms rest (afterSends [m] now s) = afterSends (m :: ms) rest s := by
  simp [afterSends, eventsAt, acknowledged, Nat.add_assoc, Nat.add_comm 1]

/-- One send: the turn offers the message, and the answer moves on to the next. -/
theorem runs_send {m : Message} (hw : s.cfg.wf = true) (hq : s.rsPending = false)
    (hm : (currentBatch s)[s.rsIndex]? = some m) (hi : s.inputs = .sequencer :: .answer .ok :: rest) :
    Runs 2 s (afterSends [m] rest s) := by
  have hoffer := step_offer hw (.inl hi) hq hm
  have hanswer := step_answer (s := offerSend m { s with inputs := .answer .ok :: rest }) hw rfl rfl
  have hafter : acknowledgeSend (offerSend m { s with inputs := rest }) = afterSends [m] rest s := by
    simp [acknowledgeSend, offerSend, onTransport, afterSends, eventsAt, acknowledged, hq]
  exact hafter ▸ (runs_one hoffer).trans (runs_one hanswer)

/-- The sends of the batch's messages from the present one on. -/
theorem runs_sends (ms : List Message) (hw : s.cfg.wf = true) (hq : s.rsPending = false)
    (hms : (currentBatch s).drop s.rsIndex = ms) (hi : s.inputs = acknowledgedSends ms.length ++ rest) :
    Runs (2 * ms.length) s (afterSends ms rest s) := by
  induction ms generalizing s with
  | nil =>
    rw [afterSends_nil (rest := rest) hi]
    exact runs_zero s
  | cons m ms ih =>
    have hm : (currentBatch s)[s.rsIndex]? = some m := by
      rw [← List.head?_drop, hms, List.head?_cons]
    rw [List.length_cons, acknowledgedSends_succ] at hi
    have hfirst := runs_send hw hq hm hi
    have hdrop : (currentBatch s).drop (s.rsIndex + 1) = ms := by
      rw [← List.tail_drop, hms, List.tail_cons]
    have hothers := ih (s := afterSends [m] (acknowledgedSends ms.length ++ rest) s) hw hq hdrop rfl
    rw [List.length_cons, Nat.mul_succ, Nat.add_comm, ← afterSends_cons]
    exact hfirst.trans hothers

/-! ### The phases of a run -/

/-- A phase that begins at its batch's first message sends the whole batch. -/
theorem runs_batch (hw : s.cfg.wf = true) (hq : s.rsPending = false) (h0 : s.rsIndex = 0)
    (hi : s.inputs = acknowledgedSends (currentBatch s).length ++ rest) :
    Runs (2 * (currentBatch s).length) s (afterSends (currentBatch s) rest s) :=
  runs_sends _ hw hq (by rw [h0, List.drop_zero]) hi

theorem runs_phaseA (hw : s.cfg.wf = true) (hp : s.rsPhase = .phaseA) (hq : s.rsPending = false) (h0 : s.rsIndex = 0)
    (hi : s.inputs = acknowledgedSends (batchA s.cfg).length ++ .sequencer :: rest) :
    Runs (2 * (batchA s.cfg).length + 1) s (endPhaseA (afterSends (batchA s.cfg) rest s)) := by
  have hcur := currentBatch_phaseA hp
  rw [← hcur] at hi ⊢
  refine (runs_batch hw hq h0 hi).trans (runs_one (step_endPhaseA hw (.inl rfl) hp hq ?_))
  simp [afterSends, h0, hcur]

theorem runs_phaseB (hw : s.cfg.wf = true) (hp : s.rsPhase = .phaseB) (hq : s.rsPending = false) (h0 : s.rsIndex = 0)
    (hi : s.inputs = acknowledgedSends (batchB s.cfg).length ++ .sequencer :: rest) :
    Runs (2 * (batchB s.cfg).length + 1) s (endPhaseB (afterSends (batchB s.cfg) rest s)) := by
  have hcur := currentBatch_phaseB hp
  rw [← hcur] at hi ⊢
  refine (runs_batch hw hq h0 hi).trans (runs_one (step_endPhaseB hw (.inl rfl) hp hq ?_))
  simp [afterSends, h0, hcur]

/-- The settling ends at the first turn after the interval (R177). -/
theorem runs_settle {d : Nat} (hw : s.cfg.wf = true) (hp : s.rsPhase = .settle)
    (hd : s.rsSettleStart + s.cfg.settleTicks ≤ s.clock + d) (hi : s.inputs = .clock d :: .sequencer :: rest) :
    Runs 2 s (endSettle (advanceClock d { s with inputs := rest })) := by
  have hclock : step s = .next (advanceClock d { s with inputs := .sequencer :: rest }) := step_input s _ _ hw hi
  have hturn := step_settle (s := advanceClock d { s with inputs := .sequencer :: rest }) hw (.inl rfl) hp
  exact (runs_one hclock).trans (runs_one (hturn.trans (congrArg _ (if_pos hd))))

end Sys2Proof.Machine

namespace Sys2Proof.Proofs

open Sys2Proof Sys2Proof.Machine

/-- Settles O48: the turn at the end of batch B finds its whole batch acknowledged, after all of batch A. -/
theorem completedResetSentBothBatches : Obligations.CompletedResetSentBothBatches := by
  intro s t hinv h hp hidle hok
  obtain ⟨x, rest, -, he⟩ := step_effect h
  obtain ⟨hq, hlen, rfl⟩ := he.completes hp hidle hok
  obtain ⟨before, runA, runB, htransport, ⟨hA, hupTo⟩, hB, hfrom⟩ := (runHistory_phaseB hp).1 hinv.history
  have hcur := currentBatch_phaseB hp
  rw [progress_of_complete (s := s) hq (hcur ▸ hlen), hcur] at hB
  exact ⟨rfl, before, runA, runB, s.rsSettleStart, htransport, hA, hB, hupTo, hfrom⟩

/-- Settles O49: the failed send is the one outstanding, after batch A's messages before it. -/
theorem failureInPhaseAStopsTheReset : Obligations.FailureInPhaseAStopsTheReset := by
  intro s e rest hinv hp hq hi
  obtain ⟨m, hm⟩ := hinv.exists_pending_message hq
  obtain ⟨before, run, htransport, hrun⟩ := (runHistory_phaseA hp).1 hinv.history
  have hcur := currentBatch_phaseA hp
  refine ⟨_, m, before, run ++ [⟨s.clock, .answered (.err e)⟩], step_answer hinv.config hi hq, rfl, rfl, rfl, rfl,
    hcur ▸ hm, ?transport, ?actions⟩
  case transport => rw [← List.append_assoc, ← htransport]; rfl
  case actions =>
    rw [sequencerActions_append, hrun, progress_of_pending hq hm, hcur, List.append_assoc]
    rfl

/-- Settles O50: the failed send is the one outstanding, after all of batch A, the settling, and batch B's messages
before it; it is answered at the clock's present reading. -/
theorem failureInPhaseBStopsThatPhase : Obligations.FailureInPhaseBStopsThatPhase := by
  intro s e rest hinv hp hq hi
  obtain ⟨m, hm⟩ := hinv.exists_pending_message hq
  obtain ⟨before, runA, runB, htransport, ⟨hA, hupTo⟩, hB, hfrom⟩ := (runHistory_phaseB hp).1 hinv.history
  have hcur := currentBatch_phaseB hp
  refine ⟨_, m, before, runA, runB ++ [⟨s.clock, .answered (.err e)⟩], step_answer hinv.config hi hq, rfl, rfl,
    rfl, hcur ▸ hm, ?transport, hA, ?actions, hupTo, hfrom.append ?barrier⟩
  case transport => rw [← List.append_assoc, ← htransport]; rfl
  case actions =>
    rw [sequencerActions_append, hB, progress_of_pending hq hm, hcur, List.append_assoc]
    rfl
  case barrier => exact List.forall_mem_singleton.2 fun _ => hinv.barrier hp

/-- Settles O51: the frame starts phase A, whose batch is sent whole; the clock's input ends the settling; phase B's
batch is sent whole. -/
theorem resetRunsToCompletion : Obligations.ResetRunsToCompletion := by
  intro s rest d hw hp hd hi
  simp only [List.append_assoc, List.cons_append, List.nil_append] at hi
  have hrun := (runs_one (step_startReset hw hi hp)).trans <|
    (runs_phaseA (by exact hw) rfl rfl rfl rfl).trans <|
    (runs_settle (by exact hw) rfl (by exact Nat.add_le_add_left hd s.clock) rfl).trans <|
    runs_phaseB (by exact hw) rfl rfl rfl rfl
  have hcount : 1 + (2 * (batchA s.cfg).length + 1 + (2 + (2 * (batchB s.cfg).length + 1))) =
      2 * (batchA s.cfg).length + 2 * (batchB s.cfg).length + 5 := by omega
  rw [← hcount]
  refine Eq.trans hrun (congrArg Host.Outcome.next ?_)
  rw [afterSends_of_zero rfl]
  rfl

end Sys2Proof.Proofs
end

section
/-! SUPPORT. Exceptions (60_exceptions): the error codes, what domain error entry leaves as it was, how a held Reset
comes to run, which orders of events give the same state, and which inputs stop the machine. -/

namespace Sys2Proof.Machine

variable {s t : State} {x : Input} {rest : List Input}

/-! ### The error codes (R201) -/

/-- The domain errors in the order of R201. -/
def domainErrors : List DomainError :=
  [.illegalCmd, .frame, .switch, .state, .channel, .position, .vpotSum, .level, .digit, .lcdRange, .textChar, .row,
   .variant]

/-- The codes number the domain errors from 1, so a code gives its error back. -/
theorem getElem?_domainErrors_code (e : DomainError) : domainErrors[e.code.toNat - 1]? = some e := by
  cases e <;> rfl

theorem code_injective : Function.Injective DomainError.code := fun a b h =>
  Option.some.inj <| by rw [← getElem?_domainErrors_code a, h, getElem?_domainErrors_code b]

/-- The transport error's code lies past the last domain error. -/
theorem code_ne_transportErrorCode (e : DomainError) : e.code ≠ transportErrorCode := by
  intro h
  have he := getElem?_domainErrors_code e
  rw [h] at he
  exact absurd he nofun

/-! ### Results come from frames only (R203) -/

/-- The only effect that answers a result is a frame's, and it changes nothing else. -/
theorem Effect.eq_emit_of_results {r : Result} (h : Effect s x t) (hr : t.results = s.results ++ [r]) :
    ∃ f, x = .frame f ∧ t = emit r s := by
  cases h with
  | answered f r' =>
    obtain rfl : r' = r := by simpa using hr
    exact ⟨f, rfl, rfl⟩
  | _ => exact absurd (List.self_eq_append_right.1 hr) nofun

/-! ### Held Reset frames (R212) -/

theorem step_holdReset (hw : s.cfg.wf = true) (hi : s.inputs = .frame [0x0D] :: rest) (hp : s.rsPhase ≠ .idle) :
    step s = .next (holdReset { s with inputs := rest }) := by
  rw [step_input s _ rest hw hi]
  exact if_neg hp

/-- Only a turn in IDLE takes a held frame away. -/
theorem Effect.held_le (h : Effect s x t) (hp : s.rsPhase ≠ .idle) : s.held ≤ t.held := by
  cases h with
  | held f _ _ => exact Nat.le_succ _
  | startedHeld hidle _ => exact absurd hidle hp
  | _ => exact Nat.le_refl _

theorem takes_of_sequencerNext (h : sequencerNext s = true) : ∃ rest, Takes s .sequencer rest := by
  cases hi : s.inputs with
  | nil => exact ⟨[], .inr ⟨hi, rfl, rfl⟩⟩
  | cons x rest =>
    cases x with
    | sequencer => exact ⟨rest, .inl hi⟩
    | _ => simp [sequencerNext, hi] at h

/-- The turn in IDLE accepts a held frame (R172). -/
theorem sequencerTurn_startHeld (hp : s.rsPhase = .idle) (hh : 0 < s.held) :
    sequencerTurn s = startReset { s with held := s.held - 1 } := by
  rw [sequencerTurn_idle hp, if_pos hh]

theorem step_startHeld (hw : s.cfg.wf = true) (h : Takes s .sequencer rest) (hp : s.rsPhase = .idle)
    (hh : 0 < s.held) : step s = .next (startReset { s with inputs := rest, held := s.held - 1 }) :=
  (step_sequencer hw h).trans (congrArg _ (sequencerTurn_startHeld hp hh))

/-! ### A new Reset (R209) -/

theorem Effect.of_failed {e : TransportError} (h : Effect s (.answer (.err e)) t) : t = takeTransportError e s := by
  cases h
  rfl

theorem exists_batchA_head {c : Config} (hw : c.wf = true) : ∃ m, (batchA c)[0]? = some m :=
  ⟨_, List.getElem?_eq_getElem (by rw [length_batchA hw]; omega)⟩

theorem exec_reset_of_idle (hp : s.rsPhase = .idle) : exec .reset s = .next (startReset s) := by
  rw [exec_reset, if_pos hp]

/-- A Reset that has just started offers batch A's first message next (R173). -/
theorem sequencerTurn_startReset {m : Message} (hm : (batchA s.cfg)[0]? = some m) :
    sequencerTurn (startReset s) = offerSend m (startReset s) :=
  sequencerTurn_offer (s := startReset s) rfl hm

/-! ### The order of an encoder command and another event (R211) -/

/-- A Reset frame starts the sequencer in IDLE and is held in any other phase. -/
theorem takeInput_reset {f : Frame} (hd : decode f = .ok .reset) (s : State) :
    takeInput (.frame f) s = if s.rsPhase = .idle then .next (startReset s) else .next (holdReset s) := by
  simp only [takeInput, acceptFrame, hd, exec_reset]

theorem takeInput_answer (a : Answer) (s : State) :
    takeInput (.answer a) s = if s.rsPending then .next (takeAnswer a s) else .fault .unsolicitedAnswer := rfl

theorem takeInput_lateAnswer (a : Answer) (s : State) :
    takeInput (.lateAnswer a) s =
      if 0 < s.abandoned then .next { s with abandoned := s.abandoned - 1 } else .fault .unsolicitedAnswer := rfl

theorem takeAnswer_emit (a : Answer) (r : Result) (s : State) : takeAnswer a (emit r s) = emit r (takeAnswer a s) := by
  cases a <;> rfl

/-- An input that answers no result does not look at the encoder result port. -/
theorem takeInput_emit (r : Result) (hx : ∀ f, x = .frame f → decode f = .ok .reset) (h : takeInput x s = .next t) :
    takeInput x (emit r s) = .next (emit r t) := by
  cases x with
  | frame f =>
    rw [takeInput_reset (hx f rfl)] at h ⊢
    split at h
    · rename_i hp
      cases h
      exact if_pos hp
    · rename_i hp
      cases h
      exact if_neg hp
  | answer a =>
    rw [takeInput_answer] at h ⊢
    split at h
    · rename_i hq
      cases h
      rw [← takeAnswer_emit]
      exact if_pos hq
    · cases h
  | lateAnswer a =>
    rw [takeInput_lateAnswer] at h ⊢
    split at h
    · rename_i ha
      cases h
      exact if_pos ha
    · cases h
  | sequencer =>
    cases h
    exact congrArg _ (sequencerTurn_emit s r)
  | clock d | callerSend m | powerOn v =>
    cases h
    rfl

/-! ### What stops the machine -/

/-- Every frame is answered, starts the sequencer, or is held. -/
theorem acceptFrame_completes (f : Frame) (s : State) : ∃ t, acceptFrame f s = .next t := by
  obtain ⟨r, h, -⟩ | ⟨-, -, h⟩ | ⟨-, -, h⟩ := acceptFrame_cases f s <;> exact ⟨_, h⟩

/-- An input completes exactly where the transport's contract allows it. -/
theorem takeInput_completes_or_faults (hi : s.inputs = x :: rest) :
    (answerExpected s = true → ∃ t, takeInput x { s with inputs := rest } = .next t) ∧
      (answerExpected s = false → takeInput x { s with inputs := rest } = .fault .unsolicitedAnswer) := by
  simp only [answerExpected, hi]
  cases x with
  | frame f => exact ⟨fun _ => acceptFrame_completes f _, nofun⟩
  | answer a =>
    rw [takeInput_answer]
    exact ⟨fun hq => ⟨_, if_pos hq⟩, fun hq => if_neg (Bool.eq_false_iff.1 hq)⟩
  | lateAnswer a =>
    rw [takeInput_lateAnswer]
    exact ⟨fun ha => ⟨_, if_pos (of_decide_eq_true ha)⟩, fun ha => if_neg (of_decide_eq_false ha)⟩
  | clock | sequencer | callerSend | powerOn => exact ⟨fun _ => ⟨_, rfl⟩, nofun⟩

end Sys2Proof.Machine

namespace Sys2Proof.Proofs

open Sys2Proof Sys2Proof.Machine

/-- Settles O60: the codes are written out; each gives its error back. -/
theorem errorCodes : Obligations.ErrorCodes :=
  ⟨rfl, rfl, rfl, rfl, rfl, rfl, rfl, rfl, rfl, rfl, rfl, rfl, rfl, code_injective, rfl, fun _ => ⟨rfl, rfl⟩,
    code_ne_transportErrorCode⟩

/-- Settles O25: a result comes from a frame only, whose effect is `emit`. -/
theorem domainErrorsChangeNothing : Obligations.DomainErrorsChangeNothing := by
  intro s t e h hr
  obtain ⟨x, rest, hx, he⟩ := step_effect h
  obtain ⟨f, rfl, rfl⟩ := he.eq_emit_of_results hr
  exact ⟨f, rest, hx.inputs_eq nofun, rfl⟩

/-- Settles O31: outside IDLE the frame is held and no effect takes a held one away; in IDLE the turn accepts one. -/
theorem resetIsHeldWhileBusy : Obligations.ResetIsHeldWhileBusy := by
  intro s rest hw hp
  refine ⟨fun hi => step_holdReset hw hi hp, fun t h hidle => ?ends⟩
  case ends =>
    obtain ⟨x, rest', -, he⟩ := step_effect h
    refine ⟨he.held_le hp, fun hh hnext => ?_⟩
    obtain ⟨later, hturn⟩ := takes_of_sequencerNext hnext
    have hwt : t.cfg.wf = true := he.cfg_eq ▸ hw
    exact ⟨_, step_startHeld hwt hturn hidle hh, rfl, rfl⟩

/-- Settles O41: the failed send leaves the sequencer idle, and batch A has a first message. -/
theorem resetIsAcceptedAfterATransportError : Obligations.ResetIsAcceptedAfterATransportError := by
  intro s t e rest hi h
  obtain ⟨hw, ⟨hnil, -⟩ | ⟨x, rest', hi', htake⟩⟩ := step_cases s t h
  · exact absurd (hi.symm.trans hnil) nofun
  · obtain ⟨rfl, rfl⟩ := List.cons.inj (hi.symm.trans hi')
    obtain rfl := (takeInput_effect htake).of_failed
    obtain ⟨m, hm⟩ := exists_batchA_head hw
    exact ⟨_, exec_reset_of_idle rfl, rfl, rfl, rfl, rfl, m, hm, sequencerTurn_startReset hm⟩

/-- Settles O52: the command is `emit` of a result that depends on the configuration alone, and the input commutes with
that. -/
theorem encoderCommandsCommuteWithInputs : Obligations.EncoderCommandsCommuteWithInputs := by
  intro i x s t hreset hx h
  obtain ⟨r, hr⟩ := encoderResult_isSome s.cfg i hreset
  have hcfg : t.cfg = s.cfg := (takeInput_effect h).cfg_eq
  exact ⟨_, _, exec_encoder i s r hr, exec_encoder i t r (hcfg ▸ hr), takeInput_emit r hx h⟩

/-- Settles O55: the turn always completes, and an input completes where the transport's contract allows it. -/
theorem onlyUnsolicitedAnswersStop : Obligations.OnlyUnsolicitedAnswersStop := by
  intro s hw
  cases hi : s.inputs with
  | nil =>
    have hexpected : answerExpected s = true := by simp only [answerExpected, hi]
    exact ⟨fun _ => ⟨_, step_waiting s hw hi⟩, fun h => absurd (hexpected.symm.trans h) nofun⟩
  | cons x rest =>
    rw [step_input s x rest hw hi]
    exact takeInput_completes_or_faults hi

end Sys2Proof.Proofs
end

section
/-! SUPPORT. Power-on reset and the late answers it leaves behind (70_reset R230, R231). -/

namespace Sys2Proof.Machine

variable {s t : State} {x : Input} {rest : List Input}

theorem step_powerOn {v : Nat} (hw : s.cfg.wf = true) (hi : s.inputs = .powerOn v :: rest) :
    step s = .next (powerOnReset v { s with inputs := rest }) :=
  step_input s _ rest hw hi

theorem step_lateAnswer {a : Answer} (hw : s.cfg.wf = true) (ha : 0 < s.abandoned)
    (hi : s.inputs = .lateAnswer a :: rest) :
    step s = .next { s with inputs := rest, abandoned := s.abandoned - 1 } := by
  rw [step_input s _ rest hw hi, takeInput_lateAnswer]
  exact if_pos ha

theorem powerOnReset_abandoned_of_pending (v : Nat) (hq : s.rsPending = true) :
    (powerOnReset v s).abandoned = s.abandoned + 1 := by
  rw [powerOnReset_abandoned, if_pos hq]

theorem powerOnReset_abandoned_of_not_pending (v : Nat) (hq : s.rsPending = false) :
    (powerOnReset v s).abandoned = s.abandoned := by
  rw [powerOnReset_abandoned, hq, if_neg Bool.false_ne_true, Nat.add_zero]

/-- Power-on and a late answer are the only inputs whose effect counts abandoned sends. -/
theorem Effect.abandoned_eq (h : Effect s x t) :
    t.abandoned = s.abandoned ∨ (∃ v, x = .powerOn v) ∨ ∃ a, x = .lateAnswer a := by
  cases h with
  | poweredOn v => exact .inr (.inl ⟨v, rfl⟩)
  | ignored a _ => exact .inr (.inr ⟨a, rfl⟩)
  | _ => exact .inl rfl

end Sys2Proof.Machine

namespace Sys2Proof.Proofs

open Sys2Proof Sys2Proof.Machine

/-- Settles O29: `powerOnReset` writes the registers and the count, a late answer takes one from the count, and no
other effect writes the count. -/
theorem powerOnResetAbandonsTheRun : Obligations.PowerOnResetAbandonsTheRun := by
  refine ⟨?powerOn, fun s a rest hw ha hi => step_lateAnswer hw ha hi, ?onlyThese⟩
  case powerOn =>
    intro s v rest hw hi
    exact ⟨_, step_powerOn hw hi, rfl, rfl, rfl, rfl, rfl, rfl, rfl, rfl, rfl, rfl, rfl, rfl,
      powerOnReset_abandoned_of_pending (s := { s with inputs := rest }) v,
      powerOnReset_abandoned_of_not_pending (s := { s with inputs := rest }) v⟩
  case onlyThese =>
    intro s t h hne
    obtain ⟨x, rest, hx, he⟩ := step_effect h
    obtain hsame | ⟨v, rfl⟩ | ⟨a, rfl⟩ := he.abandoned_eq
    · exact absurd hsame hne
    · exact .inl ⟨v, rest, hx.inputs_eq nofun⟩
    · exact .inr ⟨a, rest, hx.inputs_eq nofun⟩

end Sys2Proof.Proofs
end
